-- ==== Sys2Proof/Word.lean ====
section
/-! DEFINITION. The word types of the block: what spec/00_scope.md R9 calls values of a fixed width, bit 0 the least
significant, all unsigned. A value whose width is a parameter of R8 (DROP_W, WCUR_W, CNT_W, SW, NW) is a natural number, and the operation
that writes it keeps it below 2 to its width (log entry 15). -/

namespace Sys2Proof

/-- One byte on the byte port or in the frame buffer (R61: the unit of the frame-buffer space). -/
abbrev Byte := BitVec 8

/-- A 16-bit checksum value: `CK_INIT`, `ck_acc`, `rx_ck` (R8, R25, R64). -/
abbrev Half := BitVec 16

/-- One telemetry sample: an `SW`-bit vector, opaque to the ring buffer (R41, R65), as the number its bits are. The layout
of its bits for `SW = 296` is `packSample`'s (R100). -/
abbrev Sample := Nat

/-- The running byte count `cnt`, 9 bits (R22). -/
abbrev Count9 := BitVec 9

end Sys2Proof
end

