-- ==== Sys2Proof/Config.lean ====
section
/-! DEFINITION. The parameters of spec/00_scope.md R8, and the legal configurations of 70_reset_and_hazards.md R244 as
premises of the type. Two constants are uninterpreted: `Config.customCkStep`, an arbitrary total `CK_STEP`, and
`Config.freeByte`, the bytes no caller gave. -/

namespace Sys2Proof

/-- `CK_MODE` (R8): `VERIFY` drops frames whose checksum fails, `BYPASS` accepts every frame (R137). -/
inductive CkMode where
  | verify
  | bypass
deriving DecidableEq, Repr

/-- `CK_ORDER` (R8, R64): which trailer byte carries checksum bits 7 to 0. -/
inductive CkOrder where
  | lowFirst
  | highFirst
deriving DecidableEq, Repr

/-- `CK_STEP` (R8): the default of R98, or any other total function, named by a number. R96 asks that theorems be
stated for an arbitrary `CK_STEP`: a claim proved for every value of this type is one, since `custom k` is
uninterpreted. -/
inductive CkFun where
  | mcrf4xx
  | custom (k : Nat)
deriving DecidableEq, Repr

/-- An arbitrary total `CK_STEP` for each number: no body, so no proof can see a value of it
(93_implementation_defined.md U1; log entry 2). -/
opaque Config.customCkStep : Nat → Half → Byte → Half

/-- A byte past the end of what `processMessage` was given, for each value of the counter `State.fresh`: no body, so no
proof can see a value of it (log entry 13). -/
opaque Config.freeByte : Nat → Byte

/-- The configuration of one instance: the parameters of R8, each a field but for the two that R8 defines from others
(`Config.maxFrame`, `Config.cntWidth`), with the conditions on legal configurations carried by the type (R244: "premises
of its configuration type"). `HDR_LEN`, `CK_LEN` and `MAX_PAYLOAD` are fixed by other rules: one FSM state for each header
and trailer byte (R21), and a length of one byte of which every value is legal (R92); see log entry 22. -/
structure Config where
  /-- `START_MARKER`. -/
  startMarker : Byte
  /-- `HDR_LEN`, the header bytes of a frame. -/
  hdrLen : Nat
  /-- `CK_LEN`, the trailer bytes of a frame. -/
  ckLen : Nat
  /-- `MAX_PAYLOAD`, the largest payload length. -/
  maxPayload : Nat
  /-- `CK_MODE`. -/
  ckMode : CkMode
  /-- `CK_INIT`. -/
  ckInit : Half
  /-- `CK_STEP`. -/
  ckFun : CkFun
  /-- `CK_FIRST`: the checksum covers `buf[CK_FIRST .. 5+LEN]`. -/
  ckFirst : Nat
  /-- `CK_ORDER`. -/
  ckOrder : CkOrder
  /-- `DROP_W`, the width of the drop counter. -/
  dropW : Nat
  /-- `C`, the ring capacity in samples. -/
  cap : Nat
  /-- `WCUR_W`, the width of the write cursor. -/
  wcurW : Nat
  /-- `SW`, the width of a sample. -/
  sw : Nat
  /-- `NW`, the width of the operand `n` of `LATEST`. -/
  nw : Nat
  /-- `NREADERS`, the number of reader contexts. -/
  nReaders : Nat
  /-- `MSGID_HEARTBEAT`: used by the frame sink only (R181). -/
  msgidHeartbeat : Byte
  /-- `PRODUCER_INTERVAL` in milliseconds: timing, used by no rule (R260). -/
  producerInterval : Nat
  hdrLenIs : hdrLen = 6
  ckLenIs : ckLen = 2
  maxPayloadIs : maxPayload = 255
  capPos : 1 ≤ cap
  capBound : cap ≤ 2 ^ wcurW - 1
  readersPos : 1 ≤ nReaders
deriving DecidableEq, Repr

/-- `MAX_FRAME` (R8): `HDR_LEN + MAX_PAYLOAD + CK_LEN`, the size of the frame buffer (R23). -/
def Config.maxFrame (cfg : Config) : Nat := cfg.hdrLen + cfg.maxPayload + cfg.ckLen

/-- `CNT_W` for capacity `c` (R8): the least `w` with `2^w > c`. -/
abbrev Config.cntWidth (c : Nat) : Nat := Nat.log2 c + 1

/-- The values R8 gives this hardware; `NREADERS` is a model argument there and is 2 here, as in
95_test_vectors.md (log entry 3). -/
def Config.reference : Config :=
  { startMarker := 0xFE#8, hdrLen := 6, ckLen := 2, maxPayload := 255, ckMode := .verify, ckInit := 0xFFFF#16,
    ckFun := .mcrf4xx, ckFirst := 1, ckOrder := .lowFirst, dropW := 32, cap := 10000, wcurW := 64, sw := 296, nw := 32,
    nReaders := 2, msgidHeartbeat := 0#8, producerInterval := 50, hdrLenIs := rfl, ckLenIs := rfl, maxPayloadIs := rfl,
    capPos := by decide, capBound := by decide, readersPos := by decide }

end Sys2Proof
end

