-- ==== Sys2Proof/Syntax.lean ====
section
/-! DEFINITION. The operations of spec/opcode_table.json, one constructor a row: six `CTL` rows (30_encoding.md R103),
ten `BYTECLASS` rows (R104), four `PSEUDO` rows (R108). -/

namespace Sys2Proof

/-- The ten byte classes a submitted byte can fall in (R104, R121). -/
inductive ByteClass where
  | start
  | noise
  | len
  | seq
  | sysid
  | compid
  | msgid
  | payload
  | ck1
  | ck2
deriving DecidableEq, Repr

/-- One operation of the block, or one pseudo-operation of R108. A `BYTECLASS` constructor is a `SUBMIT` of its byte in
a state where R121 puts the byte in that class. -/
inductive Instr where
  /-- `RESET` (R240). -/
  | reset
  /-- `SUBMIT b` (R120). -/
  | submit (b : Byte)
  /-- `PUSH s` (R150). -/
  | push (x : Sample)
  /-- `LATEST.REQ r n` (R155). -/
  | latestReq (r : Nat) (n : Nat)
  /-- `LATEST.BEAT r` (R158). -/
  | latestBeat (r : Nat)
  /-- The idle row of R103: `CTL = 0` and no context busy. -/
  | idle
  /-- Class `START` (R122). -/
  | start (b : Byte)
  /-- Class `NOISE` (R123). -/
  | noise (b : Byte)
  /-- Class `LEN` (R124). -/
  | len (b : Byte)
  /-- Class `SEQ` (R125). -/
  | seq (b : Byte)
  /-- Class `SYSID` (R126). -/
  | sysid (b : Byte)
  /-- Class `COMPID` (R127). -/
  | compid (b : Byte)
  /-- Class `MSGID` (R128). -/
  | msgid (b : Byte)
  /-- Class `PAYLOAD` (R129). -/
  | payload (b : Byte)
  /-- Class `CK1` (R130). -/
  | ck1 (b : Byte)
  /-- Class `CK2` (R131). -/
  | ck2 (b : Byte)
  /-- `processMessage(bytes, length)` (R108). -/
  | processMessage (bytes : List Byte) (length : Nat)
  /-- `latest(n)` on context `r` (R108). -/
  | latest (r : Nat) (n : Nat)
  /-- `getLatestBatch(maxCount)` on the free context `r` the host boundary chose (R108, R195). -/
  | getLatestBatch (r : Nat) (maxCount : Int)
  /-- `isEmpty` / `isFull` (R108). -/
  | isEmptyIsFull
deriving DecidableEq, Repr

end Sys2Proof
end

