-- ==== Sys2Proof/Decode.lean ====
section
/-! DEFINITION. The port word of one step (30_encoding.md R90, R102, R103) and its decoder and encoder; the byte-class
rows of R104; the sample packing of R100. Nothing here can be rejected: "There is no illegal encoding and nothing
traps" (R106), so `decode` is total on every port word. -/

namespace Sys2Proof

/-- What the input ports carry in one step (R90, R102): the strobes `CTL[3:0] = {rst, in_valid, push_valid, rd_req}` and
the operands on their own ports. `ctx` says which context's `rd_req[r]` is the one the table shows; under `CTL = 0` it is
the context whose turn to beat it is, `none` where no context is given the turn (log entry 5). -/
structure PortWord where
  ctl : BitVec 4 := 0
  inByte : Byte := 0
  pushSample : Sample := 0
  ctx : Option Nat := none
  rdN : Nat := 0
deriving DecidableEq, Repr

/-- A row of R103 is selected when `CTL and mask == match`. -/
def rowHits (mask pat ctl : BitVec 4) : Bool := ctl &&& mask == pat

/-- The operation a port word selects: the rows of R103, in the serial order of 60_exceptions.md R222 where several
match (`RESET` alone by R221, then `SUBMIT`, `LATEST.REQ`, `PUSH`). `CTL = 0` is a beat of the context given the turn,
and the idle row where none is. -/
def decode (w : PortWord) : Instr :=
  if rowHits 0b1000 0b1000 w.ctl then .reset
  else if rowHits 0b1100 0b0100 w.ctl then .submit w.inByte
  else if rowHits 0b1001 0b0001 w.ctl then .latestReq (w.ctx.getD 0) w.rdN
  else if rowHits 0b1010 0b0010 w.ctl then .push w.pushSample
  else match w.ctx with
    | some r => .latestBeat r
    | none => .idle

/-- The strobes a port word still presents after the operation `decode` selects: none after `RESET`, whose step discards
the other strobes (R221); the remaining ones, in the order of R222, otherwise. -/
def PortWord.rest (w : PortWord) : List PortWord :=
  if rowHits 0b1000 0b1000 w.ctl then []
  else if rowHits 0b1100 0b0100 w.ctl then
    if w.ctl &&& 0b0011 == 0 then [] else [{ w with ctl := w.ctl &&& 0b0011 }]
  else if rowHits 0b1001 0b0001 w.ctl then
    if w.ctl &&& 0b0010 == 0 then [] else [{ w with ctl := 0b0010 }]
  else []

/-- The number `n` of the `latest(n)` that `getLatestBatch(maxCount)` performs: `min(maxCount, 2^NW - 1)` (R195). -/
def batchCount (cfg : Config) (maxCount : Int) : Nat := min maxCount.toNat (2 ^ cfg.nw - 1)

/-- The port words of an operation (R103, R108). A byte class is the `SUBMIT` of its byte, a pseudo-operation the words
of its expansion; the beats of a `latest` are sequenced by the block and have no word of their own, and of a
`processMessage` the words are those of the bytes it was given. -/
def encode (cfg : Config) : Instr → List PortWord
  | .reset => [{ ctl := 0b1000 }]
  | .submit b => [{ ctl := 0b0100, inByte := b }]
  | .push x => [{ ctl := 0b0010, pushSample := x }]
  | .latestReq r n => [{ ctl := 0b0001, ctx := some r, rdN := n }]
  | .latestBeat r => [{ ctl := 0b0000, ctx := some r }]
  | .idle => [{ ctl := 0b0000 }]
  | .start b => [{ ctl := 0b0100, inByte := b }]
  | .noise b => [{ ctl := 0b0100, inByte := b }]
  | .len b => [{ ctl := 0b0100, inByte := b }]
  | .seq b => [{ ctl := 0b0100, inByte := b }]
  | .sysid b => [{ ctl := 0b0100, inByte := b }]
  | .compid b => [{ ctl := 0b0100, inByte := b }]
  | .msgid b => [{ ctl := 0b0100, inByte := b }]
  | .payload b => [{ ctl := 0b0100, inByte := b }]
  | .ck1 b => [{ ctl := 0b0100, inByte := b }]
  | .ck2 b => [{ ctl := 0b0100, inByte := b }]
  | .processMessage bytes n => (bytes.take n).map fun b => { ctl := 0b0100, inByte := b }
  | .latest r n => [{ ctl := 0b0001, ctx := some r, rdN := n }]
  | .getLatestBatch r c =>
    if c ≤ 0 then [] else [{ ctl := 0b0001, ctx := some r, rdN := batchCount cfg c }]
  | .isEmptyIsFull => []

/-- What decoding the word of a `CTL` row gives back: the operation itself, and the `SUBMIT` of its byte for a byte
class (whose class is decided by the state, R121). -/
def onPort : Instr → Instr
  | .reset => .reset
  | .submit b => .submit b
  | .push x => .push x
  | .latestReq r n => .latestReq r n
  | .latestBeat r => .latestBeat r
  | .idle => .idle
  | .start b => .submit b
  | .noise b => .submit b
  | .len b => .submit b
  | .seq b => .submit b
  | .sysid b => .submit b
  | .compid b => .submit b
  | .msgid b => .submit b
  | .payload b => .submit b
  | .ck1 b => .submit b
  | .ck2 b => .submit b
  | .processMessage bytes n => .processMessage bytes n
  | .latest r n => .latest r n
  | .getLatestBatch r c => .getLatestBatch r c
  | .isEmptyIsFull => .isEmptyIsFull

/-- The operation is a row of R103 or R104, and so has a port word of its own (a pseudo-operation has none, R108). -/
def Instr.hasWord : Instr → Bool
  | .reset => true
  | .submit _ => true
  | .push _ => true
  | .latestReq _ _ => true
  | .latestBeat _ => true
  | .idle => true
  | .start _ => true
  | .noise _ => true
  | .len _ => true
  | .seq _ => true
  | .sysid _ => true
  | .compid _ => true
  | .msgid _ => true
  | .payload _ => true
  | .ck1 _ => true
  | .ck2 _ => true
  | .processMessage _ _ => false
  | .latest _ _ => false
  | .getLatestBatch _ _ => false
  | .isEmptyIsFull => false

/-- The `BYTECLASS` operation of class `c` with byte `b`. -/
def ofClass (c : ByteClass) (b : Byte) : Instr :=
  match c with
  | .start => .start b
  | .noise => .noise b
  | .len => .len b
  | .seq => .seq b
  | .sysid => .sysid b
  | .compid => .compid b
  | .msgid => .msgid b
  | .payload => .payload b
  | .ck1 => .ck1 b
  | .ck2 => .ck2 b

/-- The port word of a word as opcode_table.json numbers it: a value below 16 is `CTL[3:0]` with all operands zero; a
byte with a bit above bit 3 is no `CTL` vector and is `in_byte` of a `SUBMIT` (the `BYTECLASS` rows; log entry 6). -/
def PortWord.ofTable (w : Nat) : PortWord :=
  if w < 16 then { ctl := BitVec.ofNat 4 w } else { ctl := 0b0100, inByte := BitVec.ofNat 8 w }

/-- The row of opcode_table.json a word stands for, its bits numbered as the table numbers them: a `CTL` vector is
decoded by `decode`; a byte is put in the class it has in `WaitingForStart`, the state after reset (R121). -/
def decodeTableWord (nbits w : Nat) : Option Instr :=
  if 2 ^ nbits ≤ w ∨ 256 ≤ w then none
  else if w < 16 then some (decode (PortWord.ofTable w))
  else if (PortWord.ofTable w).inByte = Config.reference.startMarker then some (.start (PortWord.ofTable w).inByte)
  else some (.noise (PortWord.ofTable w).inByte)

/-- The six fields of a sample (R100). -/
structure SampleFields where
  seq : BitVec 32
  tag : BitVec 8
  ts : BitVec 64
  v1 : BitVec 64
  v2 : BitVec 64
  v3 : BitVec 64
deriving DecidableEq, Repr

/-- The packing of R100 into `SW = 296` bits: `seq` in bits 31:0, `type` 39:32, `ts` 103:40, `v1` 167:104, `v2` 231:168, `v3` 295:232. -/
def packSample (f : SampleFields) : Sample :=
  (f.v3 ++ f.v2 ++ f.v1 ++ f.ts ++ f.tag ++ f.seq : BitVec (64 + 64 + 64 + 64 + 8 + 32)).toNat

/-- The fields of a sample by the bit positions of R100. -/
def unpackSample (x : Sample) : SampleFields :=
  { seq := BitVec.ofNat 32 x, tag := BitVec.ofNat 8 (x >>> 32), ts := BitVec.ofNat 64 (x >>> 40),
    v1 := BitVec.ofNat 64 (x >>> 104), v2 := BitVec.ofNat 64 (x >>> 168), v3 := BitVec.ofNat 64 (x >>> 232) }

/-- A sample as the host's `getLatestBatch` hands it over: `{seq, type, v1, v2, v3}`, the timestamp dropped (R195). -/
structure BatchItem where
  seq : BitVec 32
  tag : BitVec 8
  v1 : BitVec 64
  v2 : BitVec 64
  v3 : BitVec 64
deriving DecidableEq, Repr

/-- The projection of `getLatestBatch` (R108, R195). -/
def projectSample (x : Sample) : BatchItem :=
  { seq := (unpackSample x).seq, tag := (unpackSample x).tag, v1 := (unpackSample x).v1,
    v2 := (unpackSample x).v2, v3 := (unpackSample x).v3 }

end Sys2Proof
end

