-- ==== Sys2Proof/Machine/State.lean ====
section
/-! DEFINITION. The architectural state of DEC (spec/10_state.md R20) and RB (R40, R46), the outputs of the latest step
(R28, R49, R102), the configuration, and the agents' pending operations (20_memory.md R71); the faults and refusals;
the state right after reset (R53). -/

namespace Sys2Proof.Machine

/-- The nine FSM states of R21, in the source's order; codes 9 to 15 cannot be written. -/
inductive FsmState where
  | waitingForStart
  | gotStart
  | gotLength
  | gotSequence
  | gotSourceSystem
  | gotSourceComponent
  | gotMessageId
  | accumulatingPayload
  | gotChecksumByte1
deriving DecidableEq, Repr

/-- DEC's state elements (R20), no more (R29). -/
structure Dec where
  /-- `st` (R21). -/
  st : FsmState
  /-- `cnt`, the index in `buf` where the next consumed byte goes (R22). -/
  cnt : Count9
  /-- `buf[0..262]` (R23): the bytes that hold a value, by index. A byte that is not listed holds none (R53). -/
  buf : List Host.Cell
  /-- `ck_acc` (R25). -/
  ckAcc : Half
  /-- `ck_drop_cnt` (R26), a `DROP_W`-bit value. -/
  ckDropCnt : Nat
deriving DecidableEq, Repr

/-- One reader context `rd[r]` (R46), with the reader's own record of what its beats returned. -/
structure RdCtx where
  /-- `busy_r`. -/
  busy : Bool
  /-- `w_r`, a `WCUR_W`-bit value. -/
  w : Nat
  /-- `m_r`, a `CNT_W`-bit value. -/
  m : Nat
  /-- `i_r`, a `CNT_W`-bit value. -/
  i : Nat
  /-- The reader agent's: the samples the beats of its latest read returned, in beat order (R160). Not block state. -/
  got : List Sample
deriving DecidableEq, Repr

/-- RB's state elements (R40), no more (R50). -/
structure Rb where
  /-- `slots[0..C-1]` (R41): the slots that hold a sample, by index. -/
  slots : List (Nat × Sample)
  /-- `wcur` (R42), a `WCUR_W`-bit value. -/
  wcur : Nat
  /-- `count` (R43), a `CNT_W`-bit value. -/
  count : Nat
  /-- `rd[0..NREADERS-1]` (R46). -/
  rd : List RdCtx
deriving DecidableEq, Repr

/-- The frame record of the frame port (R95). -/
structure Frame where
  len : Byte
  seq : Byte
  sysid : Byte
  compid : Byte
  msgid : Byte
  payload : List Byte
  ck : Half
  raw : List Byte
deriving DecidableEq, Repr

/-- One beat on the read port: `rd_valid[r]` with `rd_sample[r]` and `rd_last[r]` (R49, R158). -/
structure Beat where
  ctx : Nat
  sample : Sample
  last : Bool
deriving DecidableEq, Repr

/-- The outputs of the latest step: one-step strobes with their data (R215, R254), none of them block state (R28, R49). -/
structure Out where
  /-- `frame_valid` with `frame`: the frame emitted in this step. -/
  frame : Option Frame := none
  /-- `ck_drop`. -/
  ckDrop : Bool := false
  /-- The read-port strobe of this step. -/
  beat : Option Beat := none
  /-- The answer of `isEmpty` / `isFull` to the host: `(empty, full)` (R108). -/
  flags : Option (Bool × Bool) := none
  /-- `getLatestBatch` failed fast at the host boundary (R195). -/
  hostFail : Bool := false
deriving DecidableEq, Repr

/-- The whole machine: the configuration of the instance (it never changes, R41), the two units (they share nothing,
R2), the outputs of the latest step, and what the agents around the block have still to do. -/
structure State where
  /-- The configuration (00_scope.md R8). -/
  cfg : Config
  /-- The decoder. -/
  dec : Dec
  /-- The ring buffer. -/
  rb : Rb
  /-- The outputs of the latest step. -/
  out : Out
  /-- The port words the environment has still to present, in the order of the interleaving (R71). The model's own. -/
  ports : List PortWord
  /-- Operations the host's calls still owe (R108) and requests that wait for a busy context (R156). The model's own. -/
  queue : List Instr
  /-- How many free values have been used (`Config.freeByte`, log entry 13). The model's own. -/
  fresh : Nat
deriving DecidableEq, Repr

/-- Why a step stops with a fault. The spec admits none in a run from reset (R210, R242); each is raised in states no
run reaches, where a rule would read a value the state does not hold, and each is safe (U5: "fault on read"). -/
inductive Fault where
  /-- A read of `buf[k]`, which holds no value (R23, R53, U5). Raised by the byte classes `PAYLOAD`, `CK1`, `CK2` and by
  `SUBMIT`. Safe. -/
  | bufUnwritten (k : Nat)
  /-- An access to `buf[k]` with `k > 262`, a location the frame-buffer space does not have (R60, R66). Raised by
  `PAYLOAD`, `CK1`, `CK2` and `SUBMIT`. Safe. -/
  | bufNoSuchByte (k : Nat)
  /-- A beat that reads `slots[j]`, which holds no sample (R41, R53, U5). Raised by `LATEST.BEAT`. Safe. -/
  | slotUnwritten (j : Nat)
deriving DecidableEq, Repr

/-- Why a step is refused: the term is not an operation the block can be given. -/
inductive Refusal where
  /-- The instruction has no meaning in this model yet. Raised by `exec` alone. Safe. -/
  | notModelled (mnemonic : String)
  /-- A byte class that is not the class of its byte in this state: R104 puts every pair of state and byte in exactly one
  class, so no such step exists. Raised by the ten byte classes. Safe. -/
  | classNotSelected (c : ByteClass)
  /-- A reader context the instance does not have: it has `NREADERS` (R46, R210, R227). Raised by the `LATEST`
  operations. Safe. -/
  | noSuchContext (r : Nat)
deriving DecidableEq, Repr

/-- A reader context after reset: idle (R53). `w_r`, `m_r`, `i_r` have no value there; zero is the model's (log entry 1). -/
def RdCtx.idle : RdCtx := { busy := false, w := 0, m := 0, i := 0, got := [] }

/-- DEC after reset (R53). `ck_acc` has no value there; zero is the model's (log entry 1). -/
def Dec.reset : Dec := { st := .waitingForStart, cnt := 0, buf := [], ckAcc := 0, ckDropCnt := 0 }

/-- RB after reset with `n` reader contexts (R53). -/
def Rb.reset (n : Nat) : Rb := { slots := [], wcur := 0, count := 0, rd := List.replicate n RdCtx.idle }

/-- An instance of configuration `cfg` right after reset: nothing presented, nothing pending; the counter of free values
starts at 0, a DESIGN CHOICE nothing rests on (log entry 13). -/
def State.resetOf (cfg : Config) : State :=
  { cfg := cfg, dec := Dec.reset, rb := Rb.reset cfg.nReaders, out := {}, ports := [], queue := [], fresh := 0 }

/-- The machine right after reset (R53, R240), at the parameters R8 gives this hardware. -/
def State.reset : State := State.resetOf Config.reference

end Sys2Proof.Machine
end

