-- ==== Sys2Proof/Machine/Ops.lean ====
section
/-! DEFINITION. The named operations over the two memories (spec/20_memory.md R61, R62), the reader contexts (R46) and the
agents' pending operations, and the one way a step stops. The block takes no exception (60_exceptions.md R210), so there is
no exception entry and no return here. -/

namespace Sys2Proof.Machine

/-! ## A memory: a list of (address, content) pairs, addresses strictly rising; an unlisted address holds no value -/

/-- The content of address `a`, none where nothing was ever written there (R53). -/
def Memory.read {α : Type} (m : List (Nat × α)) (a : Nat) : Option α :=
  match m with
  | [] => none
  | (k, v) :: rest => if a = k then some v else Memory.read rest a

/-- The memory with `v` at address `a`. -/
def Memory.write {α : Type} (m : List (Nat × α)) (a : Nat) (v : α) : List (Nat × α) :=
  match m with
  | [] => [(a, v)]
  | (k, u) :: rest =>
    if a < k then (a, v) :: (k, u) :: rest
    else if a = k then (a, v) :: rest
    else (k, u) :: Memory.write rest a v

/-- The addresses rise strictly, the first is at least `lo`, and all lie below `hi`. -/
def Memory.risesFrom {α : Type} (lo hi : Nat) (m : List (Nat × α)) : Bool :=
  match m with
  | [] => true
  | (k, _) :: rest => decide (lo ≤ k) && decide (k < hi) && Memory.risesFrom (k + 1) hi rest

/-- The canonical form of a memory of `size` locations: addresses strictly rising, all of them in the space (R60). An
unlisted address reads as no value, so no entry can equal what an unlisted one reads as. -/
def Memory.wf {α : Type} (size : Nat) (m : List (Nat × α)) : Bool := Memory.risesFrom 0 size m

/-- The contents of the `n` locations from `a` on, or the first location among them that holds no value. -/
def Memory.readRange {α : Type} (m : List (Nat × α)) (a : Nat) : Nat → Except Nat (List α)
  | 0 => .ok []
  | n + 1 =>
    match Memory.read m a with
    | none => .error a
    | some v =>
      match Memory.readRange m (a + 1) n with
      | .error k => .error k
      | .ok vs => .ok (v :: vs)

/-! ## The frame-buffer space (R60, R61) -/

/-- The fault of a read of `buf[k]` that yields nothing. -/
def bufFault (cfg : Config) (k : Nat) : Fault := if k < cfg.maxFrame then .bufUnwritten k else .bufNoSuchByte k

/-- Read `buf[k]`. -/
def bufByte (cfg : Config) (m : List Host.Cell) (k : Nat) : Except Fault Byte :=
  match Memory.read m k with
  | some b => .ok b
  | none => .error (bufFault cfg k)

/-- Read `buf[k .. k+n-1]`. -/
def bufBytes (cfg : Config) (m : List Host.Cell) (k n : Nat) : Except Fault (List Byte) :=
  match Memory.readRange m k n with
  | .ok bs => .ok bs
  | .error j => .error (bufFault cfg j)

/-- `buf[k] <- b` (R61, R163). -/
def bufStore (cfg : Config) (m : List Host.Cell) (k : Nat) (b : Byte) : Except Fault (List Host.Cell) :=
  if k < cfg.maxFrame then .ok (Memory.write m k b) else .error (.bufNoSuchByte k)

/-! ## Steps -/

/-- The outputs of a step that asserts no strobe. -/
def Out.quiet : Out := { frame := none, ckDrop := false, beat := none, flags := none, hostFail := false }

/-- A step that changes no state element and asserts no strobe. -/
def State.still (s : State) : State := { s with out := Out.quiet }

/-- The outcome of an effect that may read a value the state does not hold (U5). -/
def settle (e : Except Fault State) : Host.Outcome State Fault Refusal :=
  match e with
  | .ok s => .next s
  | .error f => .fault f

/-! ## Reader contexts (R46) -/

/-- Context `r` is one the instance has. -/
def State.hasCtx (s : State) (r : Nat) : Bool := decide (r < s.rb.rd.length)

/-- Context `r`. -/
def State.ctx (s : State) (r : Nat) : RdCtx := s.rb.rd.getD r RdCtx.idle

/-- The state with context `r` replaced, and nothing else of it (R75). -/
def State.setCtx (s : State) (r : Nat) (c : RdCtx) : State :=
  { s with rb := { s.rb with rd := s.rb.rd.set r c } }

/-- The lowest busy context, if any is busy. -/
def firstBusy (rd : List RdCtx) : Option Nat := rd.findIdx? (·.busy)

/-! ## The agents' pending operations -/

/-- A request to a busy context has no step and waits (R156): it joins the pending operations, and the block is still. -/
def State.wait (s : State) (i : Instr) : State := { s.still with queue := s.queue ++ [i] }

/-- The state in which `is` are the next pending operations. -/
def State.owe (s : State) (is : List Instr) : State := { s with queue := is ++ s.queue }

end Sys2Proof.Machine
end

