-- ==== Sys2Proof/Machine/Flags.lean ====
section
/-! DEFINITION. Status outputs and derived values, combinational functions of the state (spec/10_state.md R28, R45, R48,
R49; 41_ringbuffer.md R161), and the checksum (30_encoding.md R94, R96 to R98). The block has no flag register (R162). -/

namespace Sys2Proof.Machine

/-! ## Status outputs -/

/-- `dec_busy` (R28). -/
def State.decBusy (s : State) : Bool := s.dec.st != .waitingForStart

/-- `empty` (R45). -/
def State.empty (s : State) : Bool := s.rb.count == 0

/-- `full` (R45). -/
def State.full (s : State) : Bool := s.rb.count == s.cfg.cap

/-- `in_ready`, constantly 1 (R28). -/
def State.inReady (_ : State) : Bool := true

/-- `push_ready`, constantly 1 (R49). -/
def State.pushReady (_ : State) : Bool := true

/-- `rd_ready_r` (R49). -/
def State.rdReady (s : State) (r : Nat) : Bool := !(s.ctx r).busy

/-- `rd_count_r` (R49). -/
def State.rdCount (s : State) (r : Nat) : Nat := (s.ctx r).m

/-- The write pointer `wptr = wcur mod C` (R48). -/
def State.wptr (s : State) : Nat := s.rb.wcur % s.cfg.cap

/-- The read pointer `((w - 1 - i) mod 2^WCUR_W) mod C` (R48, R158, R162 (i)). -/
def rptrOf (cfg : Config) (w i : Nat) : Nat := (((w : Int) - 1 - i) % ((2 ^ cfg.wcurW : Nat) : Int)).toNat % cfg.cap

/-- `rptr_r` (R48). -/
def State.rptr (s : State) (r : Nat) : Nat := rptrOf s.cfg (s.ctx r).w (s.ctx r).i

/-- `i_r + 1`, a `CNT_W`-bit sum (R162 (j)). -/
def beatIndexSucc (cap i : Nat) : Nat := (i + 1) % 2 ^ Config.cntWidth cap

/-- `rd_last_r = (i_r + 1 == m_r)` (R49, R162 (k)). -/
def RdCtx.last (cap : Nat) (c : RdCtx) : Bool := beatIndexSucc cap c.i == c.m

/-! ## The checksum -/

/-- The default `CK_STEP`, the byte step of CRC-16/MCRF4XX, in the byte-wise form of R98. -/
def crcStep (acc : Half) (b : Byte) : Half :=
  let t0 : Byte := b ^^^ acc.setWidth 8
  let t1 : Byte := t0 ^^^ (t0 <<< 4)
  (acc >>> 8) ^^^ (t1.setWidth 16 <<< 8) ^^^ (t1.setWidth 16 <<< 3) ^^^ (t1 >>> 4).setWidth 16

/-- One of the eight bit steps of the bit-serial form of R98. -/
def crcBit (acc : Half) : Half := if acc.getLsbD 0 then (acc >>> 1) ^^^ 0x8408#16 else acc >>> 1

/-- The bit-serial form of the default `CK_STEP` (R98), for checking the other. -/
def crcStepSerial (acc : Half) (b : Byte) : Half :=
  crcBit (crcBit (crcBit (crcBit (crcBit (crcBit (crcBit (crcBit (acc ^^^ b.setWidth 16))))))))

/-- `CK_STEP` of a configuration (R8). -/
def ckStep (cfg : Config) (acc : Half) (b : Byte) : Half :=
  match cfg.ckFun with
  | .mcrf4xx => crcStep acc b
  | .custom k => Config.customCkStep k acc b

/-- The accumulator after the byte stored at `buf[k]`, an index up to `5+LEN`: the checksum covers it from `CK_FIRST` on
(R8, R25). -/
def ckAt (cfg : Config) (k : Nat) (acc : Half) (b : Byte) : Half := if cfg.ckFirst ≤ k then ckStep cfg acc b else acc

/-- `fold(CK_STEP, CK_INIT, bytes)` (R96). -/
def ckFold (cfg : Config) (bytes : List Byte) : Half := bytes.foldl (ckStep cfg) cfg.ckInit

/-- `rx_ck` of the first and the second trailer byte (R64, R94): by `CK_ORDER`, the first in bits 7 to 0. -/
def rxCk (cfg : Config) (first second : Byte) : Half :=
  match cfg.ckOrder with
  | .lowFirst => second ++ first
  | .highFirst => first ++ second

/-- Whether `CK2` accepts the frame: `(CK_MODE == BYPASS) or (rx_ck == ck_acc)` (R131, R137). -/
def ckAccepts (cfg : Config) (rx acc : Half) : Bool := cfg.ckMode == .bypass || rx == acc

end Sys2Proof.Machine
end

