-- ==== Sys2Proof/Machine/Operands.lean ====
section
/-! DEFINITION. How an operation finds its operands: the declared length, the class of a submitted byte
(spec/40_decoder.md R121), the frame record (30_encoding.md R95), the number of samples a read returns (R105, R155). -/

namespace Sys2Proof.Machine

/-- `LEN = buf[1]` (R24, R92); the sums with it are 9-bit and never overflow (R162 (a)). -/
def lenOf (cfg : Config) (d : Dec) : Except Fault Nat :=
  match bufByte cfg d.buf 1 with
  | .ok b => .ok b.toNat
  | .error f => .error f

/-- Classification of a submitted byte, row for row as R121; `LEN` is read in the rows that use it. -/
def classify (cfg : Config) (d : Dec) (b : Byte) : Except Fault ByteClass :=
  match d.st with
  | .waitingForStart => .ok (if b = cfg.startMarker then .start else .noise)
  | .gotStart => .ok .len
  | .gotLength => .ok .seq
  | .gotSequence => .ok .sysid
  | .gotSourceSystem => .ok .compid
  | .gotSourceComponent => .ok .msgid
  | .gotMessageId =>
    match lenOf cfg d with
    | .ok l => .ok (if l = 0 then .ck1 else .payload)
    | .error f => .error f
  | .accumulatingPayload =>
    match lenOf cfg d with
    | .ok l => .ok (if d.cnt.toNat = cfg.hdrLen + l then .ck1 else .payload)
    | .error f => .error f
  | .gotChecksumByte1 => .ok .ck2

/-- Where a class stores its byte: the index its rule writes (R122 to R131), nowhere for `NOISE`. -/
def storeIndex (c : ByteClass) (d : Dec) : Option Nat :=
  match c with
  | .start => some 0
  | .noise => none
  | .len => some 1
  | .seq => some 2
  | .sysid => some 3
  | .compid => some 4
  | .msgid => some 5
  | .payload => some d.cnt.toNat
  | .ck1 => some d.cnt.toNat
  | .ck2 => some d.cnt.toNat

/-- The frame record of R95, from the buffer as it stands at the end of the `CK2` step. -/
def frameRecord (cfg : Config) (m : List Host.Cell) (ck : Half) : Except Fault Frame :=
  match bufBytes cfg m 1 (cfg.hdrLen - 1) with
  | .ok [len, seq, sysid, compid, msgid] =>
    match bufBytes cfg m cfg.hdrLen len.toNat with
    | .ok payload =>
      match bufBytes cfg m 0 (cfg.hdrLen + len.toNat + cfg.ckLen) with
      | .ok raw => .ok { len := len, seq := seq, sysid := sysid, compid := compid, msgid := msgid,
                         payload := payload, ck := ck, raw := raw }
      | .error f => .error f
    | .error f => .error f
  | .ok _ => .error (bufFault cfg 1)
  | .error f => .error f

/-- `m = min(n, count)` (R155, R162 (h)). -/
def readLength (s : State) (n : Nat) : Nat := min n s.rb.count

end Sys2Proof.Machine
end

