-- ==== Sys2Proof/Machine/Decoder.lean ====
section
/-! DEFINITION. The ten byte classes (spec/40_decoder.md R122 to R131) and `SUBMIT` (R120). -/

namespace Sys2Proof.Machine

/-- Perform `e` if class `c` is the one R121 selects for byte `b` in this state; no other class has a step (R104). -/
def inClass (c : ByteClass) (b : Byte) (s : State) (e : Except Fault State) : Host.Outcome State Fault Refusal :=
  match classify s.cfg s.dec b with
  | .ok c' => if c' = c then settle e else .refused (.classNotSelected c)
  | .error f => .fault f

/-- Store the byte at index `k` and set `cnt`, `ck_acc` and `st`: the shape of every class but `NOISE` and `CK2`. -/
def takeByte (k : Nat) (cnt : Count9) (acc : Half) (st : FsmState) (b : Byte) (s : State) : Except Fault State :=
  match bufStore s.cfg s.dec.buf k b with
  | .ok m => .ok { s with dec := { s.dec with buf := m, cnt := cnt, ckAcc := acc, st := st }, out := Out.quiet }
  | .error f => .error f

/-- `START` (R122): `buf[0] <- b; cnt <- 1; ck_acc <- CK_INIT; st <- GotStart`. The marker is folded in only if `CK_FIRST`
is 0 (R8). -/
def doStart (b : Byte) (s : State) : Except Fault State := takeByte 0 1 (ckAt s.cfg 0 s.cfg.ckInit b) .gotStart b s

/-- `NOISE` (R123): no state element changes. -/
def doNoise (_ : Byte) (s : State) : Except Fault State := .ok s.still

/-- `LEN` (R124). -/
def doLen (b : Byte) (s : State) : Except Fault State :=
  takeByte 1 2 (ckAt s.cfg 1 s.dec.ckAcc b) .gotLength b s

/-- `SEQ` (R125). -/
def doSeq (b : Byte) (s : State) : Except Fault State :=
  takeByte 2 3 (ckAt s.cfg 2 s.dec.ckAcc b) .gotSequence b s

/-- `SYSID` (R126). -/
def doSysid (b : Byte) (s : State) : Except Fault State :=
  takeByte 3 4 (ckAt s.cfg 3 s.dec.ckAcc b) .gotSourceSystem b s

/-- `COMPID` (R127). -/
def doCompid (b : Byte) (s : State) : Except Fault State :=
  takeByte 4 5 (ckAt s.cfg 4 s.dec.ckAcc b) .gotSourceComponent b s

/-- `MSGID` (R128). -/
def doMsgid (b : Byte) (s : State) : Except Fault State :=
  takeByte 5 6 (ckAt s.cfg 5 s.dec.ckAcc b) .gotMessageId b s

/-- `PAYLOAD` (R129). -/
def doPayload (b : Byte) (s : State) : Except Fault State :=
  takeByte s.dec.cnt.toNat (s.dec.cnt + 1) (ckAt s.cfg s.dec.cnt.toNat s.dec.ckAcc b) .accumulatingPayload b s

/-- `CK1` (R130): `ck_acc` is not changed. -/
def doCk1 (b : Byte) (s : State) : Except Fault State :=
  takeByte s.dec.cnt.toNat (s.dec.cnt + 1) s.dec.ckAcc .gotChecksumByte1 b s

/-- `ck_drop_cnt + 1`, which wraps mod `2^DROP_W` (R26, R162 (b)). -/
def dropSucc (cfg : Config) (n : Nat) : Nat := (n + 1) % 2 ^ cfg.dropW

/-- The end of every frame: `cnt <- 0; st <- WaitingForStart` over the stored buffer (R131). -/
def Dec.closed (d : Dec) (m : List Host.Cell) : Dec := { d with buf := m, cnt := 0, st := .waitingForStart }

/-- `CK2` (R131): store the second trailer byte, assemble `rx_ck`, emit or drop. -/
def doCk2 (b : Byte) (s : State) : Except Fault State :=
  match bufStore s.cfg s.dec.buf s.dec.cnt.toNat b with
  | .error f => .error f
  | .ok m =>
    match bufByte s.cfg s.dec.buf (s.dec.cnt - 1).toNat with
    | .error f => .error f
    | .ok first =>
      if ckAccepts s.cfg (rxCk s.cfg first b) s.dec.ckAcc then
        match frameRecord s.cfg m (rxCk s.cfg first b) with
        | .error f => .error f
        | .ok fr => .ok { s with dec := s.dec.closed m, out := { Out.quiet with frame := some fr } }
      else
        .ok { s with dec := { s.dec.closed m with ckDropCnt := dropSucc s.cfg s.dec.ckDropCnt },
                     out := { Out.quiet with ckDrop := true } }

/-- The effect of class `c` (R122 to R131). -/
def doClass (c : ByteClass) (b : Byte) (s : State) : Except Fault State :=
  match c with
  | .start => doStart b s
  | .noise => doNoise b s
  | .len => doLen b s
  | .seq => doSeq b s
  | .sysid => doSysid b s
  | .compid => doCompid b s
  | .msgid => doMsgid b s
  | .payload => doPayload b s
  | .ck1 => doCk1 b s
  | .ck2 => doCk2 b s

/-- `START` (R122). -/
def execStart (b : Byte) (s : State) : Host.Outcome State Fault Refusal := inClass .start b s (doStart b s)

/-- `NOISE` (R123). -/
def execNoise (b : Byte) (s : State) : Host.Outcome State Fault Refusal := inClass .noise b s (doNoise b s)

/-- `LEN` (R124). -/
def execLen (b : Byte) (s : State) : Host.Outcome State Fault Refusal := inClass .len b s (doLen b s)

/-- `SEQ` (R125). -/
def execSeq (b : Byte) (s : State) : Host.Outcome State Fault Refusal := inClass .seq b s (doSeq b s)

/-- `SYSID` (R126). -/
def execSysid (b : Byte) (s : State) : Host.Outcome State Fault Refusal := inClass .sysid b s (doSysid b s)

/-- `COMPID` (R127). -/
def execCompid (b : Byte) (s : State) : Host.Outcome State Fault Refusal := inClass .compid b s (doCompid b s)

/-- `MSGID` (R128). -/
def execMsgid (b : Byte) (s : State) : Host.Outcome State Fault Refusal := inClass .msgid b s (doMsgid b s)

/-- `PAYLOAD` (R129). -/
def execPayload (b : Byte) (s : State) : Host.Outcome State Fault Refusal := inClass .payload b s (doPayload b s)

/-- `CK1` (R130). -/
def execCk1 (b : Byte) (s : State) : Host.Outcome State Fault Refusal := inClass .ck1 b s (doCk1 b s)

/-- `CK2` (R131). -/
def execCk2 (b : Byte) (s : State) : Host.Outcome State Fault Refusal := inClass .ck2 b s (doCk2 b s)

/-- `SUBMIT b` (R120): classify the byte by R121 and perform the rule of its class; nothing else. -/
def execSubmit (b : Byte) (s : State) : Host.Outcome State Fault Refusal :=
  match classify s.cfg s.dec b with
  | .ok c => settle (doClass c b s)
  | .error f => .fault f

end Sys2Proof.Machine
end

