-- ==== Sys2Proof/Machine/Ring.lean ====
section
/-! DEFINITION. The ring-buffer operations (spec/41_ringbuffer.md): `PUSH` (R150), `LATEST.REQ` (R155, R156) and
`LATEST.BEAT` (R158). -/

namespace Sys2Proof.Machine

/-- `PUSH x` (R150): store, advance the cursor, saturate the count, in one indivisible step. Never refused. -/
def execPush (x : Sample) (s : State) : Host.Outcome State Fault Refusal :=
  .next { s with
    rb := { s.rb with
      slots := Memory.write s.rb.slots s.wptr x
      wcur := (s.rb.wcur + 1) % 2 ^ s.cfg.wcurW
      count := min (s.rb.count + 1) s.cfg.cap }
    out := Out.quiet }

/-- The registers of a context after the snapshot of R155; the reader's record of the new read is empty. -/
def snapshot (s : State) (n : Nat) : RdCtx :=
  { busy := readLength s n != 0, w := s.rb.wcur, m := readLength s n, i := 0, got := [] }

/-- An accepted `LATEST.REQ r n` (R155). -/
def doRequest (r : Nat) (n : Nat) (s : State) : State := s.still.setCtx r (snapshot s n)

/-- `LATEST.REQ r n` (R155); on a busy context the request waits (R156). -/
def execLatestReq (r : Nat) (n : Nat) (s : State) : Host.Outcome State Fault Refusal :=
  if s.hasCtx r = false then .refused (.noSuchContext r)
  else if (s.ctx r).busy then .next (s.wait (.latestReq r n))
  else .next (doRequest r n s)

/-- The registers of context `c` after a beat that returned `x` (R158). -/
def RdCtx.beaten (cap : Nat) (c : RdCtx) (x : Sample) : RdCtx :=
  { c with i := beatIndexSucc cap c.i, busy := !(c.last cap), got := c.got ++ [x] }

/-- One beat of the busy context `r` (R158): the slot is read as it is at this step. -/
def doBeat (r : Nat) (s : State) : Except Fault State :=
  match Memory.read s.rb.slots (s.rptr r) with
  | none => .error (.slotUnwritten (s.rptr r))
  | some x =>
    .ok { s.setCtx r ((s.ctx r).beaten s.cfg.cap x) with
      out := { Out.quiet with beat := some { ctx := r, sample := x, last := (s.ctx r).last s.cfg.cap } } }

/-- `LATEST.BEAT r` (R158). A context that is not busy has no beat: the step is idle (R103). -/
def execLatestBeat (r : Nat) (s : State) : Host.Outcome State Fault Refusal :=
  if s.hasCtx r = false then .refused (.noSuchContext r)
  else if (s.ctx r).busy then settle (doBeat r s)
  else .next s.still

end Sys2Proof.Machine
end

