-- ==== Sys2Proof/Machine/Pseudo.lean ====
section
/-! DEFINITION. The pseudo-operations of spec/30_encoding.md R108, each put to work as its expansion: the operations it
stands for become pending, in order, and are then performed one a step (log entry 7). -/

namespace Sys2Proof.Machine

/-- The first `length` bytes of what the caller gave. The spec gives `bytes[k]` no value past the end: each such byte is a
free value (DESIGN CHOICE, log entry 13). -/
def State.messageBytes (s : State) (bytes : List Byte) (length : Nat) : List Byte :=
  bytes.take length ++ (List.range (length - bytes.length)).map (fun k => Config.freeByte (s.fresh + k))

/-- `processMessage(bytes, length)` (R108): `SUBMIT bytes[0]; ...; SUBMIT bytes[length-1]`, nothing else. -/
def execProcessMessage (bytes : List Byte) (length : Nat) (s : State) : Host.Outcome State Fault Refusal :=
  .next { s.still.owe ((s.messageBytes bytes length).map .submit) with fresh := s.fresh + (length - bytes.length) }

/-- `latest(n)` on a free context (R108): the request, and then `m_r` beats. -/
def startRead (r : Nat) (n : Nat) (s : State) : State :=
  (doRequest r n s).owe (List.replicate (readLength s n) (.latestBeat r))

/-- `latest(n)` on context `r` (R108); on a busy context it waits as its request does (R156). -/
def execLatest (r : Nat) (n : Nat) (s : State) : Host.Outcome State Fault Refusal :=
  if s.hasCtx r = false then .refused (.noSuchContext r)
  else if (s.ctx r).busy then .next (s.wait (.latest r n))
  else .next (startRead r n s)

/-- `getLatestBatch(maxCount)` (R108, R195): a non-positive count fails fast at the boundary and no request is issued;
otherwise `latest(min(maxCount, 2^NW - 1))`. -/
def execGetLatestBatch (r : Nat) (maxCount : Int) (s : State) : Host.Outcome State Fault Refusal :=
  if maxCount ≤ 0 then .next { s with out := { Out.quiet with hostFail := true } }
  else if s.hasCtx r = false then .refused (.noSuchContext r)
  else if (s.ctx r).busy then .next (s.wait (.getLatestBatch r maxCount))
  else .next (startRead r (batchCount s.cfg maxCount) s)

/-- The batch `getLatestBatch` hands over from context `r` when its read is done: each sample projected, in beat order
(R108, R195). -/
def State.batch (s : State) (r : Nat) : List BatchItem := (s.ctx r).got.map projectSample

/-- `isEmpty` / `isFull` (R108): a read of the status outputs; no state element changes. -/
def execIsEmptyIsFull (s : State) : Host.Outcome State Fault Refusal :=
  .next { s with out := { Out.quiet with flags := some (s.empty, s.full) } }

end Sys2Proof.Machine
end

