-- ==== Sys2Proof/Machine/System.lean ====
section
/-! DEFINITION. `RESET` (spec/70_reset_and_hazards.md R240) and the idle row (30_encoding.md R103, R106). -/

namespace Sys2Proof.Machine

/-- A reader context after `RESET`: `busy_r <- 0`; `w_r`, `m_r`, `i_r` are not written (R240). -/
def RdCtx.released (c : RdCtx) : RdCtx := { c with busy := false }

/-- DEC after `RESET` (R240): `buf` holds no value afterwards; `ck_acc` is not written. -/
def Dec.afterReset (d : Dec) : Dec :=
  { st := .waitingForStart, cnt := 0, buf := [], ckAcc := d.ckAcc, ckDropCnt := 0 }

/-- RB after `RESET` (R240): the slots hold no value afterwards. -/
def Rb.afterReset (b : Rb) : Rb :=
  { slots := [], wcur := 0, count := 0, rd := b.rd.map RdCtx.released }

/-- `RESET` (R240): both units together, no strobe. -/
def execReset (s : State) : Host.Outcome State Fault Refusal :=
  .next { s with dec := s.dec.afterReset, rb := s.rb.afterReset, out := Out.quiet }

/-- The idle row (R103, R106): no state element changes. -/
def execIdle (s : State) : Host.Outcome State Fault Refusal := .next s.still

end Sys2Proof.Machine
end

