-- ==== Sys2Proof/Machine/Dispatch.lean ====
section
/-! DEFINITION. One arm per operation of spec/opcode_table.json. -/

namespace Sys2Proof.Machine

def exec (i : Instr) (s : State) : Host.Outcome State Fault Refusal :=
  match i with
  | .reset => Sys2Proof.Machine.execReset s
  | .submit b => Sys2Proof.Machine.execSubmit b s
  | .push x => Sys2Proof.Machine.execPush x s
  | .latestReq r n => Sys2Proof.Machine.execLatestReq r n s
  | .latestBeat r => Sys2Proof.Machine.execLatestBeat r s
  | .idle => Sys2Proof.Machine.execIdle s
  | .start b => Sys2Proof.Machine.execStart b s
  | .noise b => Sys2Proof.Machine.execNoise b s
  | .len b => Sys2Proof.Machine.execLen b s
  | .seq b => Sys2Proof.Machine.execSeq b s
  | .sysid b => Sys2Proof.Machine.execSysid b s
  | .compid b => Sys2Proof.Machine.execCompid b s
  | .msgid b => Sys2Proof.Machine.execMsgid b s
  | .payload b => Sys2Proof.Machine.execPayload b s
  | .ck1 b => Sys2Proof.Machine.execCk1 b s
  | .ck2 b => Sys2Proof.Machine.execCk2 b s
  | .processMessage bytes n => Sys2Proof.Machine.execProcessMessage bytes n s
  | .latest r n => Sys2Proof.Machine.execLatest r n s
  | .getLatestBatch r c => Sys2Proof.Machine.execGetLatestBatch r c s
  | .isEmptyIsFull => Sys2Proof.Machine.execIsEmptyIsFull s

end Sys2Proof.Machine
end

