-- ==== Sys2Proof/Machine/Fetch.lean ====
section
/-! DEFINITION. Which operation the next step performs (spec/20_memory.md R71, 30_encoding.md R103): the presented port
word's, or an earlier one of the same agent; and where no strobe is presented a pending operation, a beat of a busy
context, or the idle row. The block fetches
no instructions (10_state.md R51). -/

namespace Sys2Proof.Machine

/-- The context an operation needs free (R155, R156). -/
def needsFree : Instr → Option Nat
  | .reset => none
  | .submit _ => none
  | .push _ => none
  | .latestReq r _ => some r
  | .latestBeat _ => none
  | .idle => none
  | .start _ => none
  | .noise _ => none
  | .len _ => none
  | .seq _ => none
  | .sysid _ => none
  | .compid _ => none
  | .msgid _ => none
  | .payload _ => none
  | .ck1 _ => none
  | .ck2 _ => none
  | .processMessage _ _ => none
  | .latest r _ => some r
  | .getLatestBatch r c => if c ≤ 0 then none else some r
  | .isEmptyIsFull => none

/-- An agent whose own steps occur in the order it issues them (R71). -/
inductive Agent where
  /-- The byte source. -/
  | byteSource
  /-- The producer. -/
  | producer
  /-- The reader that owns context `r`. -/
  | reader (r : Nat)
deriving DecidableEq, Repr

/-- The agent that issues an operation. Beats are sequenced by the block (R158, R159) and any agent may read the status
outputs (R227), so neither waits its turn; `RESET` comes before everything presented with it (R221). -/
def agentOf : Instr → Option Agent
  | .reset => none
  | .submit _ => some .byteSource
  | .push _ => some .producer
  | .latestReq r _ => some (.reader r)
  | .latestBeat _ => none
  | .idle => none
  | .start _ => some .byteSource
  | .noise _ => some .byteSource
  | .len _ => some .byteSource
  | .seq _ => some .byteSource
  | .sysid _ => some .byteSource
  | .compid _ => some .byteSource
  | .msgid _ => some .byteSource
  | .payload _ => some .byteSource
  | .ck1 _ => some .byteSource
  | .ck2 _ => some .byteSource
  | .processMessage _ _ => some .byteSource
  | .latest r _ => some (.reader r)
  | .getLatestBatch r _ => some (.reader r)
  | .isEmptyIsFull => none

/-- The first operation of agent `a` among `is`, and the others. -/
def takeFirst (a : Agent) (is : List Instr) : Option (Instr × List Instr) :=
  match is with
  | [] => none
  | i :: rest =>
    if agentOf i = some a then some (i, rest)
    else match takeFirst a rest with
      | some (j, others) => some (j, i :: others)
      | none => none

/-- The turn of the pending operation `i`, which leaves `others` pending: `i` itself, or while the context it needs is busy
a beat of that context, which is always enabled (R159), with `i` still pending (R156). -/
def pendingTurn (i : Instr) (others : List Instr) (s : State) : Instr × State :=
  match needsFree i with
  | some r => if (s.ctx r).busy then (.latestBeat r, s) else (i, { s with queue := others })
  | none => (i, { s with queue := others })

/-- The step in which no strobe is presented (`CTL = 0`): the turn of the first pending operation; with nothing pending, a
beat of the lowest busy context (the `LATEST.BEAT` row of R103) or the idle row (log entry 10). -/
def quietTurn (s : State) : Instr × State :=
  match s.queue with
  | i :: is => pendingTurn i is s
  | [] =>
    match firstBusy s.rb.rd with
    | some r => (.latestBeat r, s)
    | none => (.idle, s)

/-- The step in which operation `i` is presented. An agent that has an operation pending issued it before `i`: that one has
the turn, and `i` joins the pending operations (R71; log entry 9). -/
def presentedTurn (i : Instr) (s : State) : Instr × State :=
  match agentOf i with
  | none => (i, s)
  | some a =>
    match takeFirst a s.queue with
    | none => (i, s)
    | some (j, others) => pendingTurn j (others ++ [i]) { s with queue := s.queue ++ [i] }

/-- The operation of the next step, and the state it is performed in. -/
def fetch (s : State) : Instr × State :=
  match s.ports with
  | [] => quietTurn s
  | w :: ws =>
    if decode w = .idle then quietTurn { s with ports := w.rest ++ ws }
    else presentedTurn (decode w) { s with ports := w.rest ++ ws }

end Sys2Proof.Machine
end

