-- ==== Sys2Proof/Machine/Step.lean ====
section
/-! DEFINITION. One step of the machine: one operation of one agent (spec/00_scope.md R7, R12). -/

namespace Sys2Proof.Machine

/-- One step: the operation the ports and the pending operations select, performed. -/
def step (s : State) : Host.Outcome State Fault Refusal := exec (fetch s).1 (fetch s).2

/-- The state in which the operation a table word stands for is the one the next step performs: its port word is
presented next, and what is pending and could take that turn is not: anything where the word is `CTL = 0`, else the
operations of the same agent (log entry 6). -/
def State.withFetchWord (s : State) (_nbits w : Nat) : State :=
  { s with
    ports := PortWord.ofTable w :: s.ports
    queue :=
      if decode (PortWord.ofTable w) = .idle then []
      else s.queue.filter fun i => agentOf i == none || agentOf i != agentOf (decode (PortWord.ofTable w)) }

end Sys2Proof.Machine
end

