-- ==== Sys2Proof/Machine/Run.lean ====
section
/-! DEFINITION. Runs: several operations, or several steps, one after another, with the outputs of each
(spec/00_scope.md R12, R15, R16). -/

namespace Sys2Proof.Machine

/-- The operations `is` performed in order, and the outputs of each step; a stop ends the run. -/
def runOps (is : List Instr) (s : State) : Host.Outcome (State × List Out) Fault Refusal :=
  match is with
  | [] => .next (s, [])
  | i :: rest =>
    match exec i s with
    | .fault f => .fault f
    | .refused r => .refused r
    | .next t =>
      match runOps rest t with
      | .fault f => .fault f
      | .refused r => .refused r
      | .next (u, outs) => .next (u, t.out :: outs)

/-- `k` steps of the machine, and the outputs of each; a stop ends the run. -/
def runSteps (k : Nat) (s : State) : Host.Outcome (State × List Out) Fault Refusal :=
  match k with
  | 0 => .next (s, [])
  | k + 1 =>
    match step s with
    | .fault f => .fault f
    | .refused r => .refused r
    | .next t =>
      match runSteps k t with
      | .fault f => .fault f
      | .refused r => .refused r
      | .next (u, outs) => .next (u, t.out :: outs)

/-- The frames emitted in a run, in order (R15). -/
def framesOf (outs : List Out) : List Frame := outs.filterMap (·.frame)

/-- The number of drop pulses in a run (R15). -/
def dropsOf (outs : List Out) : Nat := outs.countP (·.ckDrop)

/-- `SUBMIT` of each byte in order. -/
def submits (bytes : List Byte) : List Instr := bytes.map .submit

end Sys2Proof.Machine
end

