-- ==== Sys2Proof/Machine/Collaborators.lean ====
section
/-! DEFINITION. The components on the other side of the block's ports (spec/42_collaborators.md). They are not part of
the block (00_scope.md R5) and no operation of it reads them; they stand here as functions of what the block shows, so that
a claim can name its environment. Only what the spec gives is here (log entry 8). -/

namespace Sys2Proof.Machine

/-- The fields of `VehicleState` that anything the source defines ever writes (R181, R182). R182 gives no default for any
field, only "unknown": `none` is that for the ids, and a flag that starts at false is the model's choice (DESIGN CHOICE,
log entry 23). -/
structure Vehicle where
  connected : Bool := false
  systemId : Option Byte := none
  componentId : Option Byte := none
deriving DecidableEq, Repr

/-- The frame sink: the state store, whether an observer is registered, and the snapshots it was given, oldest first
(R183, R184). -/
structure FrameSink where
  vehicle : Vehicle := {}
  observer : Bool := false
  notified : List Vehicle := []
deriving DecidableEq, Repr

/-- `MessageDispatcher` on a completed frame (R181): a heartbeat updates the store and notifies the observer if one is
registered (R184); any other message id is a no-op. -/
def FrameSink.dispatch (cfg : Config) (k : FrameSink) (f : Frame) : FrameSink :=
  if f.msgid = cfg.msgidHeartbeat then
    { k with
      vehicle := { connected := true, systemId := some f.sysid, componentId := some f.compid }
      notified := if k.observer then
          k.notified ++ [{ connected := true, systemId := some f.sysid, componentId := some f.compid }]
        else k.notified }
  else k

/-- The sink takes the frame of a step, if one is emitted, within that step (R180, R216); that it always does is the
environment assumption U17 asks to be named (log entry 8). -/
def FrameSink.take (cfg : Config) (k : FrameSink) (o : Out) : FrameSink :=
  match o.frame with
  | some f => k.dispatch cfg f
  | none => k

/-- `StatsAggregator` (R187): the total, of no stated width. Its start at 0 is the model's choice: R187 gives no start value
(DESIGN CHOICE, log entry 23). -/
structure Aggregator where
  total : Nat := 0
deriving DecidableEq, Repr

/-- `record(sampleKind)` (R187): the kind is not broken out. -/
def Aggregator.record (a : Aggregator) (_kind : BitVec 8) : Aggregator := { total := a.total + 1 }

/-- `snapshot(elapsedSeconds)` (R188), the rate as an exact fraction: its number format is not given. -/
def Aggregator.snapshot (a : Aggregator) (elapsed : Rat) : Nat × Rat :=
  (a.total, if elapsed ≤ 0 then 0 else (a.total : Rat) / elapsed)

/-- `TelemetryProducer` (R189): its running flag. That it is not running before the first `start()` is the model's choice:
R189 does not say (DESIGN CHOICE, log entry 23). -/
structure Producer where
  running : Bool := false
deriving DecidableEq, Repr

/-- `start()` (R189): idempotent. -/
def Producer.start (_ : Producer) : Producer := { running := true }

/-- `stop()` (R189, R191): idempotent. -/
def Producer.stop (_ : Producer) : Producer := { running := false }

/-- What the producer does in one interval with the sample it has made (R190, R191): while running, one `PUSH`; nothing
once stopped. -/
def Producer.interval (p : Producer) (x : Sample) : List Instr := if p.running then [.push x] else []

/-- A frame up to its trailer, in the layout of R91. -/
def frameBody (cfg : Config) (seq sysid compid msgid : Byte) (payload : List Byte) : List Byte :=
  [cfg.startMarker, BitVec.ofNat 8 payload.length, seq, sysid, compid, msgid] ++ payload

/-- The bytes a frame's checksum covers: those from `buf[CK_FIRST]` to the last of the payload (R8, R96). -/
def coveredBytes (cfg : Config) (seq sysid compid msgid : Byte) (payload : List Byte) : List Byte :=
  (frameBody cfg seq sysid compid msgid payload).drop cfg.ckFirst

/-- The two trailer bytes that carry `ck` under `CK_ORDER` (R64). -/
def trailer (cfg : Config) (ck : Half) : List Byte :=
  match cfg.ckOrder with
  | .lowFirst => [ck.setWidth 8, (ck >>> 8).setWidth 8]
  | .highFirst => [(ck >>> 8).setWidth 8, ck.setWidth 8]

/-- A frame in the layout of R91 with a correct checksum under `cfg`, as an encoder with DEC's parameters produces it
(R185, R186). -/
def frameBytes (cfg : Config) (seq sysid compid msgid : Byte) (payload : List Byte) : List Byte :=
  frameBody cfg seq sysid compid msgid payload ++
    trailer cfg (ckFold cfg (coveredBytes cfg seq sysid compid msgid payload))

end Sys2Proof.Machine
end

