-- ==== Sys2Proof/Machine/Cycle.lean ====
section
/-! DEFINITION. What a clocked implementation presents in one cycle, and the serial order of transaction-level steps it is
equivalent to (spec/60_exceptions.md R221, R222). The machine's own step stays one operation (00_scope.md R7). -/

namespace Sys2Proof.Machine

/-- The strobes and operands of one clocked cycle, and the contexts that are due a beat in it (R222). -/
structure Cycle where
  rst : Bool := false
  submit : Option Byte := none
  beats : List Nat := []
  reqs : List (Nat × Nat) := []
  push : Option Sample := none
deriving DecidableEq, Repr

/-- A context performs at most one of request and beat in a cycle (R222). -/
def Cycle.wf (c : Cycle) : Bool := decide (c.beats ++ c.reqs.map (·.1)).Nodup

/-- The serial order of R222: `RESET` alone (R221); otherwise the `SUBMIT`, the beats due, the requests, the `PUSH`. -/
def Cycle.ops (c : Cycle) : List Instr :=
  if c.rst then [.reset]
  else c.submit.toList.map .submit ++ c.beats.map .latestBeat ++ c.reqs.map (fun q => .latestReq q.1 q.2) ++
    c.push.toList.map .push

/-- The port words of a cycle, one step each, to be presented in this order. -/
def Cycle.words (cfg : Config) (c : Cycle) : List PortWord := c.ops.flatMap (encode cfg)

end Sys2Proof.Machine
end

