-- ==== Sys2Proof/WellFormed.lean ====
section
/-! DEFINITION. Which terms of `Instr` the ports of an instance can express: a reader context is one of the
`NREADERS` wired ones (R46, R102, R227), a sample has `SW` bits and an operand `n` has `NW` (R8, R102, R105), and a `START`
byte is the marker and a `NOISE` byte is not (R104). -/

namespace Sys2Proof

/-- The term is one the block or its caller can express under configuration `cfg`. -/
def Instr.wf (cfg : Config) : Instr → Bool
  | .reset => true
  | .submit _ => true
  | .push x => decide (x < 2 ^ cfg.sw)
  | .latestReq r n => decide (r < cfg.nReaders) && decide (n < 2 ^ cfg.nw)
  | .latestBeat r => decide (r < cfg.nReaders)
  | .idle => true
  | .start b => b == cfg.startMarker
  | .noise b => b != cfg.startMarker
  | .len _ => true
  | .seq _ => true
  | .sysid _ => true
  | .compid _ => true
  | .msgid _ => true
  | .payload _ => true
  | .ck1 _ => true
  | .ck2 _ => true
  | .processMessage _ _ => true
  | .latest r n => decide (r < cfg.nReaders) && decide (n < 2 ^ cfg.nw)
  | .getLatestBatch r c => decide (c ≤ 0) || decide (r < cfg.nReaders)
  | .isEmptyIsFull => true

end Sys2Proof
end

