-- ==== Sys2Proof/Safety.lean ====
section
/-! DEFINITION. What a safe state is, in the terms claims use: the invariants of DEC (spec/10_state.md R22, R23, R25,
R27), of RB (R43, R44) and of the reader contexts (R46, R47), and what the agents may have pending. -/

namespace Sys2Proof.Machine

/-- `LEN` as a number; 0 where `buf[1]` holds no value. -/
def lenNat (d : Dec) : Nat :=
  match Memory.read d.buf 1 with
  | some b => b.toNat
  | none => 0

/-- The FSM state as a function of `cnt` and `LEN` (R27). -/
def stateAt (cnt len : Nat) : FsmState :=
  match cnt with
  | 0 => .waitingForStart
  | 1 => .gotStart
  | 2 => .gotLength
  | 3 => .gotSequence
  | 4 => .gotSourceSystem
  | 5 => .gotSourceComponent
  | 6 => .gotMessageId
  | k => if k ≤ 6 + len then .accumulatingPayload else .gotChecksumByte1

/-- The invariant of DEC. -/
structure DecInv (cfg : Config) (d : Dec) : Prop where
  /-- The frame buffer keeps its canonical form (R60). -/
  canonical : Memory.wf cfg.maxFrame d.buf = true
  /-- `cnt` never passes `7 + LEN` (R22). -/
  bound : d.cnt.toNat ≤ 7 + lenNat d
  /-- Every byte of the in-flight frame is stored (R23, R242). -/
  stored : ∀ k, k < d.cnt.toNat → (Memory.read d.buf k).isSome = true
  /-- A stored frame begins with the marker (R93). -/
  marker : 0 < d.cnt.toNat → Memory.read d.buf 0 = some cfg.startMarker
  /-- `st` is a function of `cnt` and `LEN` (R27). -/
  label : d.st = stateAt d.cnt.toNat (lenNat d)
  /-- `ck_acc` is the fold over the covered bytes stored so far (R25). -/
  sum : 0 < d.cnt.toNat → ∃ bytes,
    bufBytes cfg d.buf cfg.ckFirst (min d.cnt.toNat (6 + lenNat d) - cfg.ckFirst) = .ok bytes ∧
      d.ckAcc = ckFold cfg bytes
  /-- `ck_drop_cnt` has `DROP_W` bits (R26). -/
  drops : d.ckDropCnt < 2 ^ cfg.dropW

/-- The invariant of one reader context (R46, R47, R160) in a ring that holds `count` samples: the
slots a busy context will still read hold samples, also across a wrap of the cursor (R253). -/
structure CtxInv (cfg : Config) (count : Nat) (c : RdCtx) : Prop where
  cursor : c.w < 2 ^ cfg.wcurW
  progress : c.i ≤ c.m
  length : c.m ≤ cfg.cap
  live : c.busy = true → c.i < c.m ∧ c.m ≤ count ∧ c.got.length = c.i
  reach : c.busy = true → count < cfg.cap → c.m ≤ c.w ∧ c.w ≤ count

/-- The invariant of RB. -/
structure RbInv (cfg : Config) (b : Rb) : Prop where
  /-- The slot space keeps its canonical form (R60). -/
  canonical : Memory.wf cfg.cap b.slots = true
  /-- `wcur` has `WCUR_W` bits (R42). -/
  cursor : b.wcur < 2 ^ cfg.wcurW
  /-- Every sample has `SW` bits (R41). -/
  width : ∀ j x, Memory.read b.slots j = some x → x < 2 ^ cfg.sw
  /-- `count` never exceeds `C` (R43). -/
  bound : b.count ≤ cfg.cap
  /-- Until the ring has filled, `wcur` is `count` (R44). -/
  young : b.count < cfg.cap → b.wcur = b.count
  /-- Every retrievable slot has been written (R41, R47). -/
  filled : ∀ j, j < b.count → (Memory.read b.slots j).isSome = true
  /-- There are `NREADERS` contexts (R46). -/
  contexts : b.rd.length = cfg.nReaders
  readers : ∀ c ∈ b.rd, CtxInv cfg b.count c

/-- An operation that can be pending: well-formed, and not a byte class, whose step is the `SUBMIT` of its byte. -/
def plannable (cfg : Config) (i : Instr) : Bool := i.wf cfg && onPort i == i

/-- What the environment presents names only contexts the instance has, and fits the ports (R102). -/
def presentable (cfg : Config) (w : PortWord) : Bool :=
  decide (w.ctx.getD 0 < cfg.nReaders) && decide (w.pushSample < 2 ^ cfg.sw) && decide (w.rdN < 2 ^ cfg.nw)

/-- The operations a port word presents, in the order in which they have their turns (R222). -/
def PortWord.ops (w : PortWord) : List Instr := decode w :: w.rest.flatMap (fun v => decode v :: v.rest.map decode)

/-- What agent `a` has issued and has still to see performed, in the order in which it issued it (R71). -/
def State.issued (s : State) (a : Agent) : List Instr :=
  (s.queue ++ s.ports.flatMap PortWord.ops).filter (fun i => agentOf i == some a)

/-- The invariant of the machine. -/
structure State.Inv (s : State) : Prop where
  dec : DecInv s.cfg s.dec
  rb : RbInv s.cfg s.rb
  queue : ∀ i ∈ s.queue, plannable s.cfg i = true
  ports : ∀ w ∈ s.ports, presentable s.cfg w = true

/-- `t` is `s` after byte `b` went to `buf[k]` and `cnt`, `ck_acc` and `st` took the values given; nothing else of the
machine differs and no strobe is asserted (the template of R122 and R124 to R130). -/
structure TakesByte (s t : State) (k : Nat) (b : Byte) (cnt : Count9) (acc : Half) (st : FsmState) : Prop where
  st : t.dec.st = st
  cnt : t.dec.cnt = cnt
  ckAcc : t.dec.ckAcc = acc
  ckDropCnt : t.dec.ckDropCnt = s.dec.ckDropCnt
  stored : Memory.read t.dec.buf k = some b
  others : ∀ j, j ≠ k → Memory.read t.dec.buf j = Memory.read s.dec.buf j
  rb : t.rb = s.rb
  out : t.out = Out.quiet
  env : t.cfg = s.cfg ∧ t.ports = s.ports ∧ t.queue = s.queue ∧ t.fresh = s.fresh

/-- `f` is the frame record of R95 taken from the frame buffer `m`, with received checksum `ck`. -/
structure IsRecordOf (m : List Host.Cell) (ck : Half) (f : Frame) : Prop where
  len : Memory.read m 1 = some f.len
  seq : Memory.read m 2 = some f.seq
  sysid : Memory.read m 3 = some f.sysid
  compid : Memory.read m 4 = some f.compid
  msgid : Memory.read m 5 = some f.msgid
  payloadLength : f.payload.length = f.len.toNat
  payload : ∀ p, p < f.len.toNat → f.payload[p]? = Memory.read m (6 + p)
  ck : f.ck = ck
  rawLength : f.raw.length = 8 + f.len.toNat
  raw : ∀ k, k < 8 + f.len.toNat → f.raw[k]? = Memory.read m k

/-- `t` is `s` after a `CK2` step with second trailer byte `b`, but for what the outcome decides: the byte stored,
`cnt <- 0; st <- WaitingForStart`, everything else of the machine as it was (R131). -/
structure ClosesFrame (s t : State) (b : Byte) : Prop where
  st : t.dec.st = .waitingForStart
  cnt : t.dec.cnt = 0
  ckAcc : t.dec.ckAcc = s.dec.ckAcc
  stored : Memory.read t.dec.buf s.dec.cnt.toNat = some b
  others : ∀ j, j ≠ s.dec.cnt.toNat → Memory.read t.dec.buf j = Memory.read s.dec.buf j
  rb : t.rb = s.rb
  env : t.cfg = s.cfg ∧ t.ports = s.ports ∧ t.queue = s.queue ∧ t.fresh = s.fresh

/-- `t` differs from `s` in context `r` and in the outputs at most (R75). -/
structure OnlyContext (r : Nat) (s t : State) : Prop where
  dec : t.dec = s.dec
  slots : t.rb.slots = s.rb.slots
  wcur : t.rb.wcur = s.rb.wcur
  count : t.rb.count = s.rb.count
  others : ∀ q, q ≠ r → t.ctx q = s.ctx q
  width : t.rb.rd.length = s.rb.rd.length
  env : t.cfg = s.cfg ∧ t.ports = s.ports ∧ t.fresh = s.fresh

/-- A ring whose slots hold the history `h` after `p` pushes since reset, fewer than `2^WCUR_W` (R152): push `k` gave
`h k`, and the last `min(p, C)` of them are in their slots. -/
structure HoldsHistory (cfg : Config) (b : Rb) (h : Nat → Sample) (p : Nat) : Prop where
  below : p < 2 ^ cfg.wcurW
  cursor : b.wcur = p
  count : b.count = min p cfg.cap
  slots : ∀ k, k < p → p - cfg.cap ≤ k → Memory.read b.slots (k % cfg.cap) = some (h k)

end Sys2Proof.Machine
end

