-- ==== Sys2Proof/Certificates/Slice0/Obligations.lean ====
section
/-! DEFINITION. The statements for the provers, each a rule of spec/ or derived from its sections. OBLIGATIONS.json lists
them. -/

open Sys2Proof Sys2Proof.Machine

/-! ## Encodings -/

/-- The rows of R103 on the words it gives, T41's `CTL = 0b1110`, and the `START` row of the opcode table. -/
def Obligations.PortWordsDecodeToTheirRows : Prop :=
  decode { ctl := 0b1000 } = .reset ∧
  decode { ctl := 0b0100, inByte := 0xFE } = .submit 0xFE ∧
  decode { ctl := 0b0010, pushSample := 3 } = .push 3 ∧
  decode { ctl := 0b0001, ctx := some 1, rdN := 2 } = .latestReq 1 2 ∧
  decode { ctl := 0b0000, ctx := some 1 } = .latestBeat 1 ∧
  decode { ctl := 0b0000 } = .idle ∧
  decode { ctl := 0b1110, inByte := 0xFE, pushSample := 1 } = .reset ∧
  decodeTableWord 8 0xFE = some (.start 0xFE)

/-- The strobes of one port word are served in the serial order of R222, `RESET` alone (R221). -/
def Obligations.StrobesAreServedInSerialOrder : Prop :=
  ∀ w : PortWord, w.ctl ≠ 0 →
    decode w :: w.rest.flatMap (fun v => decode v :: v.rest.map decode) =
      if w.ctl.getLsbD 3 then [.reset]
      else (if w.ctl.getLsbD 2 then [.submit w.inByte] else []) ++
        (if w.ctl.getLsbD 0 then [.latestReq (w.ctx.getD 0) w.rdN] else []) ++
        (if w.ctl.getLsbD 1 then [.push w.pushSample] else [])

/-- Decoding an operation's word gives it back with every operand, a byte class as the `SUBMIT` of its byte; and the
words of a `processMessage` are the `SUBMIT`s of the bytes it was given (R103, R108). The word's layout is the model's
(log entry 5). -/
def Obligations.DecodeEncodeAgree : Prop :=
  (∀ (cfg : Config) (i : Instr), i.hasWord = true →
    (encode cfg i).map decode = [onPort i] ∧ (encode cfg i).flatMap PortWord.rest = []) ∧
  (∀ (cfg : Config) (bytes : List Byte) (n : Nat),
    (encode cfg (.processMessage bytes n)).map decode = (bytes.take n).map .submit)

/-- The bit positions of R100, and that no bit of a sample is lost either way. -/
def Obligations.SamplePackingRoundTrips : Prop :=
  (∀ f : SampleFields, unpackSample (packSample f) = f) ∧ (∀ x : Sample, x < 2 ^ 296 → packSample (unpackSample x) = x)

/-- The two forms of the default `CK_STEP` that R98 gives are one function. -/
def Obligations.ByteWiseAndBitSerialChecksumsAgree : Prop :=
  ∀ (acc : Half) (b : Byte), crcStep acc b = crcStepSerial acc b

/-! ## RESET and idle -/

/-- R53, for every configuration. -/
def Obligations.AfterResetTheStateHoldsTheseValues : Prop :=
  ∀ cfg : Config,
    (State.resetOf cfg).dec.st = .waitingForStart ∧ (State.resetOf cfg).dec.cnt = 0 ∧
    (State.resetOf cfg).dec.ckDropCnt = 0 ∧ (State.resetOf cfg).rb.wcur = 0 ∧ (State.resetOf cfg).rb.count = 0 ∧
    (State.resetOf cfg).rb.rd.length = cfg.nReaders ∧
    (∀ r, ((State.resetOf cfg).ctx r).busy = false) ∧ (State.resetOf cfg).decBusy = false ∧
    (State.resetOf cfg).empty = true ∧ (State.resetOf cfg).full = false ∧
    (∀ k, Memory.read (State.resetOf cfg).dec.buf k = none) ∧
    (∀ j, Memory.read (State.resetOf cfg).rb.slots j = none)

/-- R240 in every state: what `RESET` writes, and that it asserts no strobe. The model's choices: that `ck_acc`, `w`, `m` and
`i` keep what they held (log entry 1), that the memories list nothing (log entry 4), and that what the environment has
pending survives (log entry 16). -/
def Obligations.ResetClearsBothUnits : Prop :=
  ∀ s : State, ∃ t, exec .reset s = .next t ∧
    t.dec.st = .waitingForStart ∧ t.dec.cnt = 0 ∧ t.dec.ckDropCnt = 0 ∧ t.rb.wcur = 0 ∧ t.rb.count = 0 ∧
    (∀ r, (t.ctx r).busy = false) ∧
    (∀ k, Memory.read t.dec.buf k = none) ∧ (∀ j, Memory.read t.rb.slots j = none) ∧
    t.dec.ckAcc = s.dec.ckAcc ∧
    (∀ r, (t.ctx r).w = (s.ctx r).w ∧ (t.ctx r).m = (s.ctx r).m ∧ (t.ctx r).i = (s.ctx r).i) ∧
    t.rb.rd.length = s.rb.rd.length ∧ t.out = Out.quiet ∧
    t.decBusy = false ∧ t.empty = true ∧ t.full = false ∧
    t.cfg = s.cfg ∧ t.ports = s.ports ∧ t.queue = s.queue ∧ t.fresh = s.fresh

/-- R221 at the port: a word with `rst = 1` is `RESET` alone, its other strobes discarded. -/
def Obligations.ResetWinsOverEveryOtherRequest : Prop :=
  ∀ (s : State) (w : PortWord) (ws : List PortWord), s.ports = w :: ws → w.ctl.getLsbD 3 = true →
    ∃ t, step s = .next t ∧ exec .reset { s with ports := ws } = .next t ∧ t.out = Out.quiet ∧ t.ports = ws

/-- The idle row (R103, R106): nothing changes, no strobe. -/
def Obligations.IdleChangesNoState : Prop :=
  ∀ s : State, exec .idle s = .next { s with out := Out.quiet }

/-! ## The decoder -/

/-- R122: the marker in `WaitingForStart`. `CK_FIRST` is 1 on this hardware (R8); the marker is not covered at any value of 1
or more (log entry 22). -/
def Obligations.StartMarkerOpensAFrame : Prop :=
  ∀ (s : State) (b : Byte), s.dec.st = .waitingForStart → b = s.cfg.startMarker →
    ∃ t acc, exec (.start b) s = .next t ∧ exec (.submit b) s = .next t ∧ TakesByte s t 0 b 1 acc .gotStart ∧
      (1 ≤ s.cfg.ckFirst → acc = s.cfg.ckInit)

/-- R123: any other byte in `WaitingForStart`. -/
def Obligations.NoiseByteChangesNoState : Prop :=
  ∀ (s : State) (b : Byte), s.dec.st = .waitingForStart → b ≠ s.cfg.startMarker →
    exec (.noise b) s = .next { s with out := Out.quiet } ∧ exec (.submit b) s = .next { s with out := Out.quiet }

/-- R124 to R128: the five header bytes after the marker, each for every byte. `CK_FIRST` is 1 on this hardware (R8), which
the rules have built in; a byte is covered at every value up to its index (log entry 22). -/
def Obligations.HeaderBytesAreStoredInOrder : Prop :=
  ∀ (s : State) (b : Byte),
    (s.dec.st = .gotStart → ∃ t acc, exec (.len b) s = .next t ∧ exec (.submit b) s = .next t ∧
      TakesByte s t 1 b 2 acc .gotLength ∧ (s.cfg.ckFirst ≤ 1 → acc = ckStep s.cfg s.dec.ckAcc b)) ∧
    (s.dec.st = .gotLength → ∃ t acc, exec (.seq b) s = .next t ∧ exec (.submit b) s = .next t ∧
      TakesByte s t 2 b 3 acc .gotSequence ∧ (s.cfg.ckFirst ≤ 2 → acc = ckStep s.cfg s.dec.ckAcc b)) ∧
    (s.dec.st = .gotSequence → ∃ t acc, exec (.sysid b) s = .next t ∧ exec (.submit b) s = .next t ∧
      TakesByte s t 3 b 4 acc .gotSourceSystem ∧ (s.cfg.ckFirst ≤ 3 → acc = ckStep s.cfg s.dec.ckAcc b)) ∧
    (s.dec.st = .gotSourceSystem → ∃ t acc, exec (.compid b) s = .next t ∧ exec (.submit b) s = .next t ∧
      TakesByte s t 4 b 5 acc .gotSourceComponent ∧ (s.cfg.ckFirst ≤ 4 → acc = ckStep s.cfg s.dec.ckAcc b)) ∧
    (s.dec.st = .gotSourceComponent → ∃ t acc, exec (.msgid b) s = .next t ∧ exec (.submit b) s = .next t ∧
      TakesByte s t 5 b 6 acc .gotMessageId ∧ (s.cfg.ckFirst ≤ 5 → acc = ckStep s.cfg s.dec.ckAcc b))

/-- R129. The bound on `cnt` says that `buf[cnt]` exists; the invariant of R22 gives it in every run. `CK_FIRST`
is 1 on this hardware (R8), below every index a payload byte has; for other values see log entry 22. -/
def Obligations.PayloadByteIsStoredAndSummed : Prop :=
  ∀ (s : State) (b l : Byte), Memory.read s.dec.buf 1 = some l → s.dec.cnt.toNat < 263 →
    (s.dec.st = .gotMessageId ∧ l ≠ 0 ∨ s.dec.st = .accumulatingPayload ∧ s.dec.cnt.toNat < 6 + l.toNat) →
    ∃ t acc, exec (.payload b) s = .next t ∧ exec (.submit b) s = .next t ∧
      TakesByte s t s.dec.cnt.toNat b (s.dec.cnt + 1) acc .accumulatingPayload ∧
      (s.cfg.ckFirst ≤ s.dec.cnt.toNat → acc = ckStep s.cfg s.dec.ckAcc b)

/-- R8's `CK_FIRST`, whatever it is: a byte that no trailer class stores is folded in exactly when its index is `CK_FIRST` or
more, from `CK_INIT` for the marker and from `ck_acc` for every other. -/
def Obligations.ChecksumCoverageStartsAtCkFirst : Prop :=
  ∀ (s t : State) (b : Byte) (c : ByteClass) (k : Nat), exec (ofClass c b) s = .next t → storeIndex c s.dec = some k →
    c ≠ .ck1 → c ≠ .ck2 →
    (s.cfg.ckFirst ≤ k → t.dec.ckAcc = ckStep s.cfg (if c = .start then s.cfg.ckInit else s.dec.ckAcc) b) ∧
    (k < s.cfg.ckFirst → t.dec.ckAcc = if c = .start then s.cfg.ckInit else s.dec.ckAcc)

/-- R130: the first trailer byte is stored and not summed; with `LEN = 0` it follows the message id at once. -/
def Obligations.FirstTrailerByteIsStoredNotSummed : Prop :=
  ∀ (s : State) (b l : Byte), Memory.read s.dec.buf 1 = some l → s.dec.cnt.toNat < 263 →
    (s.dec.st = .gotMessageId ∧ l = 0 ∨ s.dec.st = .accumulatingPayload ∧ s.dec.cnt.toNat = 6 + l.toNat) →
    ∃ t, exec (.ck1 b) s = .next t ∧ exec (.submit b) s = .next t ∧
      TakesByte s t s.dec.cnt.toNat b (s.dec.cnt + 1) s.dec.ckAcc .gotChecksumByte1

/-- R131, the frame accepted: it is emitted with the record of R95 and nothing is counted. -/
def Obligations.AcceptedFrameIsEmitted : Prop :=
  ∀ (s : State) (b first : Byte), DecInv s.cfg s.dec → s.dec.st = .gotChecksumByte1 →
    Memory.read s.dec.buf (s.dec.cnt.toNat - 1) = some first →
    (s.cfg.ckMode = .bypass ∨ rxCk s.cfg first b = s.dec.ckAcc) →
    ∃ t f, exec (.ck2 b) s = .next t ∧ exec (.submit b) s = .next t ∧
      t.out = { Out.quiet with frame := some f } ∧ IsRecordOf t.dec.buf (rxCk s.cfg first b) f ∧
      (s.cfg.ckOrder = .lowFirst → f.ck = b ++ first) ∧ (s.cfg.ckOrder = .highFirst → f.ck = first ++ b) ∧
      t.dec.ckDropCnt = s.dec.ckDropCnt ∧ ClosesFrame s t b

/-- R131 and R212, the checksum failed: the frame is dropped, counted mod `2^DROP_W` and signalled, and nothing is
emitted. -/
def Obligations.FailedFrameIsDroppedAndCounted : Prop :=
  ∀ (s : State) (b first : Byte), DecInv s.cfg s.dec → s.dec.st = .gotChecksumByte1 →
    Memory.read s.dec.buf (s.dec.cnt.toNat - 1) = some first →
    s.cfg.ckMode = .verify → rxCk s.cfg first b ≠ s.dec.ckAcc →
    ∃ t, exec (.ck2 b) s = .next t ∧ exec (.submit b) s = .next t ∧
      t.out = { Out.quiet with ckDrop := true } ∧ t.dec.ckDropCnt = (s.dec.ckDropCnt + 1) % 2 ^ s.cfg.dropW ∧
      ClosesFrame s t b

/-- R120 and R104: `SUBMIT` performs the class R121 selects, and no other class of the byte has a step. -/
def Obligations.SubmitPerformsExactlyItsClass : Prop :=
  ∀ (s : State) (b : Byte) (c : ByteClass), classify s.cfg s.dec b = .ok c →
    exec (.submit b) s = exec (ofClass c b) s ∧
    (∀ c', c' ≠ c → exec (ofClass c' b) s = .refused (.classNotSelected c'))

/-- The classification by `cnt` alone that R104 says is equivalent, in every state that meets the invariant of R27. -/
def Obligations.ClassIsAFunctionOfTheCount : Prop :=
  ∀ (cfg : Config) (d : Dec) (b : Byte), DecInv cfg d →
    classify cfg d b = .ok (
      if d.cnt.toNat = 0 then (if b = cfg.startMarker then .start else .noise)
      else if d.cnt.toNat = 1 then .len
      else if d.cnt.toNat = 2 then .seq
      else if d.cnt.toNat = 3 then .sysid
      else if d.cnt.toNat = 4 then .compid
      else if d.cnt.toNat = 5 then .msgid
      else if d.cnt.toNat < 6 + lenNat d then .payload
      else if d.cnt.toNat = 6 + lenNat d then .ck1
      else .ck2)

/-- R27 and R120: every byte is taken in every state that meets the invariant, and the next state meets it. -/
def Obligations.SubmitKeepsTheDecoderInvariant : Prop :=
  ∀ (s : State) (b : Byte), DecInv s.cfg s.dec →
    ∃ t, exec (.submit b) s = .next t ∧ DecInv t.cfg t.dec

/-- The frame of the decoder's operations: what a `SUBMIT`, or a byte class, leaves unchanged. -/
def Obligations.DecoderOperationsChangeOnlyTheirOwn : Prop :=
  ∀ (s t : State) (b : Byte) (i : Instr), (i = .submit b ∨ ∃ c, i = ofClass c b) → exec i s = .next t →
    t.rb = s.rb ∧ t.cfg = s.cfg ∧ t.ports = s.ports ∧ t.queue = s.queue ∧ t.fresh = s.fresh ∧
    ∃ c, classify s.cfg s.dec b = .ok c ∧
      (∀ k, storeIndex c s.dec ≠ some k → Memory.read t.dec.buf k = Memory.read s.dec.buf k) ∧
      (∀ k, storeIndex c s.dec = some k → Memory.read t.dec.buf k = some b) ∧
      (c ≠ .ck2 → t.dec.ckDropCnt = s.dec.ckDropCnt ∧ t.out = Out.quiet) ∧
      (c = .noise ∨ c = .ck1 ∨ c = .ck2 → t.dec.ckAcc = s.dec.ckAcc)

/-- R28 and R220, over every operation: the two strobes of DEC occur only in a `CK2` step, and exactly one of them there. -/
def Obligations.DecoderStrobesOnlyAtTheLastByte : Prop :=
  ∀ (i : Instr) (s t : State), exec i s = .next t →
    (t.out.frame.isSome = true ∨ t.out.ckDrop = true →
      s.dec.st = .gotChecksumByte1 ∧ ∃ b, i = .submit b ∨ i = .ck2 b) ∧
    (∀ b, s.dec.st = .gotChecksumByte1 → i = .submit b ∨ i = .ck2 b →
      (t.out.frame.isSome = true ↔ t.out.ckDrop = false))

/-- R26, over every operation: the counter moves in the step that drops a frame and nowhere else, but for `RESET`. -/
def Obligations.DropCounterCountsDropsOnly : Prop :=
  ∀ (i : Instr) (s t : State), exec i s = .next t → i ≠ .reset →
    t.dec.ckDropCnt = (if t.out.ckDrop then (s.dec.ckDropCnt + 1) % 2 ^ s.cfg.dropW else s.dec.ckDropCnt) ∧
    (s.cfg.ckMode = .bypass → t.out.ckDrop = false ∧ t.dec.ckDropCnt = s.dec.ckDropCnt)

/-- R123 and R134: bytes that are not the marker are discarded before a frame, however many, and not counted. -/
def Obligations.NoiseIsSkippedAndNotCounted : Prop :=
  ∀ (s : State) (bytes : List Byte), s.dec.st = .waitingForStart → (∀ b ∈ bytes, b ≠ s.cfg.startMarker) →
    ∃ t outs, runOps (submits bytes) s = .next (t, outs) ∧ t.dec = s.dec ∧ t.rb = s.rb ∧
      framesOf outs = [] ∧ dropsOf outs = 0

/-- R134 with R131: from `WaitingForStart`, the marker, the covered bytes of a frame of any length and two trailer bytes
end in `WaitingForStart` with that frame emitted, or with it dropped and counted, by the trailer alone. -/
def Obligations.AFrameIsEmittedOrDroppedByItsTrailer : Prop :=
  ∀ (s : State) (seq sysid compid msgid c1 c2 : Byte) (payload : List Byte),
    s.dec.st = .waitingForStart → payload.length ≤ 255 →
    ∃ t outs, runOps (submits (frameBody s.cfg seq sysid compid msgid payload ++ [c1, c2])) s =
        .next (t, outs) ∧
      t.dec.st = .waitingForStart ∧ t.dec.cnt = 0 ∧ t.rb = s.rb ∧ outs.length = 8 + payload.length ∧
      (s.cfg.ckMode = .bypass ∨ rxCk s.cfg c1 c2 = ckFold s.cfg (coveredBytes s.cfg seq sysid compid msgid payload) →
        framesOf outs = [{ len := BitVec.ofNat 8 payload.length, seq := seq, sysid := sysid, compid := compid,
                           msgid := msgid, payload := payload, ck := rxCk s.cfg c1 c2,
                           raw := frameBody s.cfg seq sysid compid msgid payload ++ [c1, c2] }] ∧
        dropsOf outs = 0 ∧ t.dec.ckDropCnt = s.dec.ckDropCnt) ∧
      (s.cfg.ckMode = .verify ∧ rxCk s.cfg c1 c2 ≠ ckFold s.cfg (coveredBytes s.cfg seq sysid compid msgid payload) →
        framesOf outs = [] ∧ dropsOf outs = 1 ∧ t.dec.ckDropCnt = (s.dec.ckDropCnt + 1) % 2 ^ s.cfg.dropW)

/-- R186: a frame built with DEC's own checksum parameters is emitted and not dropped. -/
def Obligations.ACorrectFrameIsNeverDropped : Prop :=
  ∀ (s : State) (seq sysid compid msgid : Byte) (payload : List Byte),
    s.dec.st = .waitingForStart → payload.length ≤ 255 →
    ∃ t outs f, runOps (submits (frameBytes s.cfg seq sysid compid msgid payload)) s = .next (t, outs) ∧
      framesOf outs = [f] ∧ dropsOf outs = 0 ∧
      f.raw = frameBytes s.cfg seq sysid compid msgid payload ∧ f.payload = payload ∧ f.msgid = msgid ∧
      f.sysid = sysid ∧ f.compid = compid ∧ f.seq = seq ∧ t.dec.st = .waitingForStart

/-- R133: the frames, the drops and the final state depend on the bytes and not on how `processMessage` calls grouped
them. -/
def Obligations.ChunkingDoesNotMatter : Prop :=
  ∀ (s : State) (chunks : List (List Byte)), DecInv s.cfg s.dec → s.ports = [] →
    ∃ t outs t' outs',
      runSteps chunks.flatten.length { s with queue := submits chunks.flatten } = .next (t, outs) ∧
      runSteps (chunks.length + chunks.flatten.length)
        { s with queue := chunks.map (fun c => .processMessage c c.length) } = .next (t', outs') ∧
      t'.dec = t.dec ∧ t'.rb = t.rb ∧ framesOf outs' = framesOf outs ∧ dropsOf outs' = dropsOf outs ∧
      t.queue = [] ∧ t'.queue = []

/-! ## The ring buffer -/

/-- R150 in every state. -/
def Obligations.PushStoresAdvancesAndSaturates : Prop :=
  ∀ (s : State) (x : Sample), ∃ t, exec (.push x) s = .next t ∧
    Memory.read t.rb.slots (s.rb.wcur % s.cfg.cap) = some x ∧
    (∀ j, j ≠ s.rb.wcur % s.cfg.cap → Memory.read t.rb.slots j = Memory.read s.rb.slots j) ∧
    t.rb.wcur = (s.rb.wcur + 1) % 2 ^ s.cfg.wcurW ∧ t.rb.count = min (s.rb.count + 1) s.cfg.cap ∧
    t.empty = false ∧ (t.full = true ↔ t.rb.count = s.cfg.cap) ∧
    t.rb.rd = s.rb.rd ∧ t.dec = s.dec ∧ t.out = Out.quiet ∧
    t.cfg = s.cfg ∧ t.ports = s.ports ∧ t.queue = s.queue ∧ t.fresh = s.fresh

/-- R44: true after reset, kept by every push before the cursor wraps; at the wrap and after it `count = C` remains. -/
def Obligations.CountIsTheLesserOfCursorAndCapacity : Prop :=
  (∀ cfg : Config, (State.resetOf cfg).rb.count = min (State.resetOf cfg).rb.wcur cfg.cap) ∧
  (∀ (s t : State) (x : Sample), exec (.push x) s = .next t →
    (s.rb.count = min s.rb.wcur s.cfg.cap → s.rb.wcur + 1 < 2 ^ s.cfg.wcurW →
      t.rb.count = min t.rb.wcur t.cfg.cap) ∧
    (s.rb.count = min s.rb.wcur s.cfg.cap → s.rb.wcur + 1 = 2 ^ s.cfg.wcurW →
      t.rb.wcur = 0 ∧ t.rb.count = t.cfg.cap) ∧
    (s.rb.count = s.cfg.cap → t.rb.count = t.cfg.cap))

/-- R43 over every operation: only `PUSH` raises `count`, only `RESET` lowers it, and it never passes `C`. -/
def Obligations.CountSaturatesAndIsNeverLowered : Prop :=
  ∀ (i : Instr) (s t : State), exec i s = .next t → s.rb.count ≤ s.cfg.cap → i ≠ .reset →
    t.rb.count ≤ t.cfg.cap ∧ s.rb.count ≤ t.rb.count ∧
    ((∀ x, i ≠ .push x) → t.rb.count = s.rb.count ∧ t.rb.wcur = s.rb.wcur ∧ t.rb.slots = s.rb.slots)

/-- R155 on a free context. That the reader's own record of the new read is empty is the model's (log entry 16). -/
def Obligations.RequestTakesTheSnapshot : Prop :=
  ∀ (s : State) (r : Nat) (n : Nat), s.hasCtx r = true → (s.ctx r).busy = false →
    ∃ t, exec (.latestReq r n) s = .next t ∧ OnlyContext r s t ∧ t.queue = s.queue ∧ t.out = Out.quiet ∧
      (t.ctx r).w = s.rb.wcur ∧ (t.ctx r).m = min n s.rb.count ∧ (t.ctx r).i = 0 ∧ (t.ctx r).got = [] ∧
      ((t.ctx r).busy = true ↔ min n s.rb.count ≠ 0) ∧ t.rdCount r = min n s.rb.count

/-- R156 on a busy context: not accepted, nothing of the block changes, the request waits; that it does so at the end of the
pending operations is the model's (log entry 9). -/
def Obligations.RequestOnABusyContextWaits : Prop :=
  ∀ (s : State) (r : Nat) (n : Nat), s.hasCtx r = true → (s.ctx r).busy = true →
    s.rdReady r = false ∧
    exec (.latestReq r n) s = .next { s with out := Out.quiet, queue := s.queue ++ [.latestReq r n] }

/-- R158 on a busy context whose slot holds a sample. That the reader's own record gains the sample is the model's (log
entry 16). -/
def Obligations.BeatReturnsTheSlotUnderTheReadPointer : Prop :=
  ∀ (s : State) (r : Nat) (x : Sample), s.hasCtx r = true → (s.ctx r).busy = true →
    (s.ctx r).i < (s.ctx r).m → (s.ctx r).m ≤ s.cfg.cap →
    Memory.read s.rb.slots
      (((((s.ctx r).w : Int) - 1 - (s.ctx r).i) % ((2 ^ s.cfg.wcurW : Nat) : Int)).toNat % s.cfg.cap) = some x →
    ∃ t, exec (.latestBeat r) s = .next t ∧ OnlyContext r s t ∧ t.queue = s.queue ∧
      t.out = { Out.quiet with
        beat := some { ctx := r, sample := x, last := decide ((s.ctx r).i + 1 = (s.ctx r).m) } } ∧
      (t.ctx r).i = (s.ctx r).i + 1 ∧ ((t.ctx r).busy = true ↔ (s.ctx r).i + 1 ≠ (s.ctx r).m) ∧
      (t.ctx r).w = (s.ctx r).w ∧ (t.ctx r).m = (s.ctx r).m ∧ (t.ctx r).got = (s.ctx r).got ++ [x]

/-- R103: a context that is not busy has no beat, the step is idle (log entry 14); a context the instance lacks is refused
by every operation that reads it (log entry 12). -/
def Obligations.BeatsBelongToBusyContexts : Prop :=
  ∀ (s : State) (r : Nat) (n : Nat) (c : Int),
    (s.hasCtx r = true → (s.ctx r).busy = false → exec (.latestBeat r) s = .next { s with out := Out.quiet }) ∧
    (s.hasCtx r = false → exec (.latestBeat r) s = .refused (.noSuchContext r) ∧
      exec (.latestReq r n) s = .refused (.noSuchContext r) ∧ exec (.latest r n) s = .refused (.noSuchContext r) ∧
      (0 < c → exec (.getLatestBatch r c) s = .refused (.noSuchContext r)))

/-- R75: a request or a beat of context `r` writes only `rd[r]`. -/
def Obligations.ReadsWriteOnlyTheirOwnContext : Prop :=
  ∀ (s t : State) (r : Nat) (n : Nat),
    (exec (.latestReq r n) s = .next t ∨ exec (.latestBeat r) s = .next t) → OnlyContext r s t

/-- R152 for pushes in a row from reset: the ring holds the latest `min(P, C)` of `xs`, each in its slot. For every other
order of operations see `EveryStepKeepsTheHistory`. -/
def Obligations.AfterPushesTheRingHoldsTheLatest : Prop :=
  ∀ (cfg : Config) (xs : List Sample), xs.length < 2 ^ cfg.wcurW →
    ∃ t outs, runOps (xs.map .push) (State.resetOf cfg) = .next (t, outs) ∧
      t.rb.wcur = xs.length ∧ t.rb.count = min xs.length cfg.cap ∧
      (∀ k, k < xs.length → xs.length - cfg.cap ≤ k → Memory.read t.rb.slots (k % cfg.cap) = xs[k]?)

/-- R152 step by step: a `PUSH` that does not wrap the cursor extends the history by its sample, `RESET` starts an empty
one, and every other operation keeps it. -/
def Obligations.PushExtendsTheHistory : Prop :=
  ∀ (i : Instr) (s t : State) (h : Nat → Sample) (p : Nat), HoldsHistory s.cfg s.rb h p → exec i s = .next t →
    (∀ x, i = .push x → p + 1 < 2 ^ s.cfg.wcurW →
      HoldsHistory t.cfg t.rb (fun k => if k = p then x else h k) (p + 1)) ∧
    (i = .reset → ∀ h', HoldsHistory t.cfg t.rb h' 0) ∧
    (i ≠ .reset → (∀ x, i ≠ .push x) → HoldsHistory t.cfg t.rb h p)

/-- R152 and R16 along every interleaving: each step of the machine before the cursor wraps gives a ring that holds a
history, the old one or the old one with the sample pushed in that step, and an empty one after `RESET`. -/
def Obligations.EveryStepKeepsTheHistory : Prop :=
  ∀ (s t : State) (h : Nat → Sample) (p : Nat), HoldsHistory s.cfg s.rb h p → p + 1 < 2 ^ s.cfg.wcurW →
    step s = .next t →
    ∃ h' p', HoldsHistory t.cfg t.rb h' p' ∧
      (((fetch s).1 = .reset ∧ p' = 0) ∨
       (∃ x, (fetch s).1 = .push x ∧ p' = p + 1 ∧ h' p = x ∧ ∀ k, k < p → h' k = h k) ∨
       ((fetch s).1 ≠ .reset ∧ (∀ x, (fetch s).1 ≠ .push x) ∧ p' = p ∧ ∀ k, k < p → h' k = h k))

/-- R73: what beat `i` of a read with snapshot `w` returns when `p` pushes have followed the snapshot. -/
def Obligations.BeatReturnsTheClosedForm : Prop :=
  ∀ (s : State) (h : Nat → Sample) (r p : Nat),
    s.hasCtx r = true → (s.ctx r).busy = true → (s.ctx r).i < (s.ctx r).m → (s.ctx r).m ≤ s.cfg.cap →
    (s.ctx r).m ≤ (s.ctx r).w → HoldsHistory s.cfg s.rb h ((s.ctx r).w + p) →
    (∃ t x, exec (.latestBeat r) s = .next t ∧
      t.out.beat = some x ∧ x.ctx = r ∧
      x.sample = h ((s.ctx r).w - 1 - (s.ctx r).i + s.cfg.cap * ((p + (s.ctx r).i) / s.cfg.cap)) ∧
      (p + (s.ctx r).i < s.cfg.cap → x.sample = h ((s.ctx r).w - 1 - (s.ctx r).i))) ∧
    ((s.ctx r).w - 1 - (s.ctx r).i + s.cfg.cap * ((p + (s.ctx r).i) / s.cfg.cap) ≠
        (s.ctx r).w - 1 - (s.ctx r).i ↔ s.cfg.cap - (s.ctx r).i ≤ p)

/-- R74 for a request and its beats in a row: the read returns the `min(n, P, C)` most recent samples, the most recent
first; the reader's own record of them is the model's (log entry 16). -/
def Obligations.QuiescentReadIsMostRecentFirst : Prop :=
  ∀ (s : State) (h : Nat → Sample) (r p : Nat) (n : Nat),
    s.hasCtx r = true → (s.ctx r).busy = false → HoldsHistory s.cfg s.rb h p →
    ∃ t outs, runOps (.latestReq r n :: List.replicate (min n (min p s.cfg.cap)) (.latestBeat r)) s =
        .next (t, outs) ∧
      (t.ctx r).busy = false ∧ (t.ctx r).m = min n (min p s.cfg.cap) ∧
      (t.ctx r).got = (List.range (min n (min p s.cfg.cap))).map (fun i => h (p - 1 - i)) ∧
      outs.filterMap (·.beat) = (List.range (min n (min p s.cfg.cap))).map (fun i =>
        { ctx := r, sample := h (p - 1 - i), last := decide (i + 1 = min n (min p s.cfg.cap)) }) ∧
      t.rb.slots = s.rb.slots ∧ t.rb.wcur = s.rb.wcur ∧ t.rb.count = s.rb.count

/-- R159 and R160: a busy context's read ends after exactly its remaining beats, with `m_r` samples returned in the
reader's own record (log entry 16). -/
def Obligations.ABusyReadEndsAfterItsBeats : Prop :=
  ∀ (s : State) (r : Nat), s.Inv → s.hasCtx r = true → (s.ctx r).busy = true →
    ∃ t outs, runOps (List.replicate ((s.ctx r).m - (s.ctx r).i) (.latestBeat r)) s = .next (t, outs) ∧
      (t.ctx r).busy = false ∧ (t.ctx r).i = (s.ctx r).m ∧ (t.ctx r).got.length = (s.ctx r).m ∧
      (outs.filterMap (·.beat)).length = (s.ctx r).m - (s.ctx r).i

/-- R156: the block's own beats always lift the wait: a waiting request is accepted after the busy context's remaining
beats, with the snapshot of that moment. The order of the steps with nothing presented is the model's (log entries 9,
10). -/
def Obligations.AWaitingRequestIsAccepted : Prop :=
  ∀ (s : State) (r : Nat) (n : Nat) (q : List Instr), s.Inv → s.ports = [] → s.queue = .latestReq r n :: q →
    (s.ctx r).busy = true →
    ∃ t outs, runSteps ((s.ctx r).m - (s.ctx r).i + 1) s = .next (t, outs) ∧
      t.queue = q ∧ (t.ctx r).w = s.rb.wcur ∧ (t.ctx r).m = min n s.rb.count ∧ (t.ctx r).i = 0

/-- R222 and R258: a beat or a snapshot in the same clocked cycle as a push sees the state before the push. -/
def Obligations.SameCycleReadsComeBeforeThePush : Prop :=
  ∀ (s : State) (r : Nat) (x : Sample) (n : Nat), s.hasCtx r = true →
    (∀ y, (s.ctx r).busy = true → Memory.read s.rb.slots (s.rptr r) = some y →
      ∃ t outs, runOps (Cycle.ops { beats := [r], push := some x }) s = .next (t, outs) ∧
        (outs.filterMap (·.beat)).map (·.sample) = [y] ∧ Memory.read t.rb.slots s.wptr = some x) ∧
    ((s.ctx r).busy = false →
      ∃ t outs, runOps (Cycle.ops { reqs := [(r, n)], push := some x }) s = .next (t, outs) ∧
        (t.ctx r).w = s.rb.wcur ∧ (t.ctx r).m = min n s.rb.count ∧ t.rb.wcur = (s.rb.wcur + 1) % 2 ^ s.cfg.wcurW)

/-- R222: the port words of a clocked cycle decode to its serial order, `RESET` alone (R221). -/
def Obligations.CycleWordsDecodeToTheSerialOrder : Prop :=
  ∀ (cfg : Config) (c : Cycle), (c.words cfg).map decode = c.ops ∧ (c.words cfg).flatMap PortWord.rest = [] ∧
    (c.rst = true → c.ops = [.reset])

/-! ## The pseudo-operations -/

/-- R108: `processMessage` is the `SUBMIT`s of its bytes in order, put before everything pending (log entry 7), and nothing
else. Every byte it was given is submitted; each of those past the end is a free value, used once (log entry 13). -/
def Obligations.ProcessMessageIsItsSubmits : Prop :=
  ∀ (s : State) (bytes : List Byte) (n : Nat),
    (n ≤ bytes.length → exec (.processMessage bytes n) s =
      .next { s with out := Out.quiet, queue := submits (bytes.take n) ++ s.queue }) ∧
    (bytes.length < n → ∃ past : List Byte, past.length = n - bytes.length ∧
      (∀ k, k < n - bytes.length → past[k]? = some (Config.freeByte (s.fresh + k))) ∧
      exec (.processMessage bytes n) s =
        .next { s with out := Out.quiet, queue := submits (bytes ++ past) ++ s.queue,
                       fresh := s.fresh + (n - bytes.length) })

/-- R108: `latest(n)` is the request and then `m_r` beats, which become pending (log entry 7); on a busy context it waits at
the end of the pending operations (log entry 9). -/
def Obligations.LatestIsARequestAndItsBeats : Prop :=
  ∀ (s : State) (r : Nat) (n : Nat), s.hasCtx r = true →
    ((s.ctx r).busy = false →
      ∃ t, exec (.latestReq r n) s = .next t ∧
        exec (.latest r n) s =
          .next { t with queue := List.replicate (min n s.rb.count) (.latestBeat r) ++ s.queue }) ∧
    ((s.ctx r).busy = true →
      exec (.latest r n) s = .next { s with out := Out.quiet, queue := s.queue ++ [.latest r n] })

/-- R108 and R195: a non-positive count fails fast and issues no request; a positive one is `latest` of it, bounded by
`2^NW - 1`; each returned sample is handed over without its timestamp. -/
def Obligations.GetLatestBatchIsLatestProjected : Prop :=
  (∀ (s : State) (r : Nat) (c : Int),
    (c ≤ 0 → exec (.getLatestBatch r c) s = .next { s with out := { Out.quiet with hostFail := true } }) ∧
    (0 < c → s.hasCtx r = true → (s.ctx r).busy = false →
      ∃ t, exec (.getLatestBatch r c) s = .next t ∧ exec (.latest r (batchCount s.cfg c)) s = .next t) ∧
    (0 < c → s.hasCtx r = true → (s.ctx r).busy = true →
      exec (.getLatestBatch r c) s = .next { s with out := Out.quiet, queue := s.queue ++ [.getLatestBatch r c] }) ∧
    (0 < c → (batchCount s.cfg c : Int) = min c (2 ^ s.cfg.nw - 1))) ∧
  (∀ f : SampleFields, projectSample (packSample f) =
    { seq := f.seq, tag := f.tag, v1 := f.v1, v2 := f.v2, v3 := f.v3 }) ∧
  (∀ (s : State) (r : Nat), s.batch r = (s.ctx r).got.map projectSample)

/-- R45 and R108: `isEmpty` and `isFull` read the status outputs and change no state. -/
def Obligations.StatusReadsTheCount : Prop :=
  ∀ s : State, ∃ e f, exec .isEmptyIsFull s = .next { s with out := { Out.quiet with flags := some (e, f) } } ∧
    (e = true ↔ s.rb.count = 0) ∧ (f = true ↔ s.rb.count = s.cfg.cap)

/-! ## The machine -/

/-- A step is `exec` of the operation the presented word decodes to, its remaining strobes presented next, unless the
operation's agent has an earlier one pending. -/
def Obligations.StepRunsThePresentedOperation : Prop :=
  ∀ (s : State) (w : PortWord) (ws : List PortWord), s.ports = w :: ws → decode w ≠ .idle →
    (∀ a, agentOf (decode w) = some a → ∀ j ∈ s.queue, agentOf j ≠ some a) →
    step s = exec (decode w) { s with ports := w.rest ++ ws }

/-- R71 and R156: an operation presented while its agent has earlier ones pending joins the pending operations (log entry
9), and the first of the earlier ones has the step, or while the context it waits for is busy, that context's beat. -/
def Obligations.AnEarlierOperationGoesFirst : Prop :=
  ∀ (s : State) (w : PortWord) (ws : List PortWord) (a : Agent) (before after : List Instr) (j : Instr),
    s.ports = w :: ws → agentOf (decode w) = some a → s.queue = before ++ j :: after → agentOf j = some a →
    (∀ i ∈ before, agentOf i ≠ some a) →
    ((∀ r, needsFree j = some r → (s.ctx r).busy = false) →
      step s = exec j { s with ports := w.rest ++ ws, queue := before ++ after ++ [decode w] }) ∧
    (∀ r, needsFree j = some r → (s.ctx r).busy = true →
      step s = exec (.latestBeat r) { s with ports := w.rest ++ ws, queue := s.queue ++ [decode w] })

/-- R71: each agent's operations are performed in the order it issues them. Whatever an agent has issued, every step leaves
it as it is, or takes the first of it away, putting the `SUBMIT`s of a `processMessage` in its place. -/
def Obligations.EachAgentsOperationsKeepTheirOrder : Prop :=
  ∀ (s t : State) (a : Agent), step s = .next t →
    t.issued a = s.issued a ∨
    ∃ i rest, s.issued a = i :: rest ∧
      (∀ bytes n, i = .processMessage bytes n → t.issued a = submits (s.messageBytes bytes n) ++ rest) ∧
      ((∀ bytes n, i ≠ .processMessage bytes n) → t.issued a = rest)

/-- With no strobe presented, neither by an empty port nor by a word of the idle row, a step is `exec` of the first pending
operation, of a busy context's beat, or of the idle row (R103; the order is the model's, log entry 10). -/
def Obligations.QuietStepRunsWhatIsPending : Prop :=
  ∀ s q : State, (s.ports = [] ∧ q = s ∨ ∃ w ws, s.ports = w :: ws ∧ decode w = .idle ∧ q = { s with ports := ws }) →
    (∀ i is, s.queue = i :: is → (∀ r, needsFree i = some r → (s.ctx r).busy = false) →
      step s = exec i { q with queue := is }) ∧
    (∀ i is r, s.queue = i :: is → needsFree i = some r → (s.ctx r).busy = true → step s = exec (.latestBeat r) q) ∧
    (∀ r, s.queue = [] → firstBusy s.rb.rd = some r → step s = exec (.latestBeat r) q) ∧
    (s.queue = [] → (∀ r, (s.ctx r).busy = false) → step s = exec .idle q)

/-- R2: DEC's operations neither read nor write RB, and RB's neither read nor write DEC. -/
def Obligations.TheUnitsShareNoState : Prop :=
  (∀ (s s' t : State) (b : Byte), s'.cfg = s.cfg → s'.dec = s.dec → exec (.submit b) s = .next t →
    t.rb = s.rb ∧ ∃ t', exec (.submit b) s' = .next t' ∧ t'.dec = t.dec ∧ t'.out = t.out) ∧
  (∀ (s s' t : State) (i : Instr), (∃ x, i = .push x) ∨ (∃ r n, i = .latestReq r n) ∨ (∃ r, i = .latestBeat r) →
    s'.cfg = s.cfg → s'.rb = s.rb → exec i s = .next t →
    t.dec = s.dec ∧ ∃ t', exec i s' = .next t' ∧ t'.rb = t.rb ∧ t'.out = t.out)

/-- The configuration of an instance never changes (R41: `C` is fixed for its life). -/
def Obligations.TheConfigurationNeverChanges : Prop :=
  ∀ s t : State, step s = .next t → t.cfg = s.cfg

/-- The state after reset meets the invariant, for every legal configuration. -/
def Obligations.ResetStateMeetsTheInvariant : Prop :=
  ∀ cfg : Config, (State.resetOf cfg).Inv

/-- Every step keeps the invariant: canonical memories, R22, R23, R25, R26, R27, R41 to R44, R47. -/
def Obligations.EveryStepKeepsTheInvariant : Prop :=
  ∀ s t : State, s.Inv → step s = .next t → t.Inv

/-- R210 and R242: no step from a state that meets the invariant stops: no fault, no refusal, no unwritten value read,
also across a wrap of the cursor. -/
def Obligations.NoStepStops : Prop :=
  ∀ s : State, s.Inv → ∃ t, step s = .next t

/-! ## The environment -/

/-- R198: the bytes of a heartbeat frame of any sequence number, fed to DEC, reach the vehicle state and the registered
observer, of a sink that takes every frame (log entry 8). -/
def Obligations.HeartbeatReachesTheVehicleState : Prop :=
  ∀ (s : State) (k : FrameSink) (seq sysid compid : Byte) (payload : List Byte),
    s.dec.st = .waitingForStart → payload.length ≤ 255 →
    ∃ t outs, runOps (submits (frameBytes s.cfg seq sysid compid s.cfg.msgidHeartbeat payload)) s = .next (t, outs) ∧
      (outs.foldl (FrameSink.take s.cfg) k).vehicle = { connected := true, systemId := some sysid, componentId := some compid } ∧
      (outs.foldl (FrameSink.take s.cfg) k).notified = k.notified ++
        (if k.observer then [{ connected := true, systemId := some sysid, componentId := some compid }] else [])
end

