-- ==== Sys2Proof/Laws/Config.lean ====
section
/-! SUPPORT. The parameters of a legal configuration that other rules fix (spec/00_scope.md R8). -/

namespace Sys2Proof

@[simp] theorem Config.hdrLen_eq (cfg : Config) : cfg.hdrLen = 6 := cfg.hdrLenIs
@[simp] theorem Config.ckLen_eq (cfg : Config) : cfg.ckLen = 2 := cfg.ckLenIs
@[simp] theorem Config.maxPayload_eq (cfg : Config) : cfg.maxPayload = 255 := cfg.maxPayloadIs

/-- The frame buffer has 263 bytes (R23). -/
@[simp] theorem Config.maxFrame_eq (cfg : Config) : cfg.maxFrame = 263 := by simp [Config.maxFrame]

/-- `CNT_W` bits hold `C` (R244). -/
theorem Config.cap_lt (cfg : Config) : cfg.cap < 2 ^ Config.cntWidth cfg.cap := Nat.lt_log2_self

/-- `WCUR_W` bits hold `C` (R244). -/
theorem Config.cap_lt_cursor (cfg : Config) : cfg.cap < 2 ^ cfg.wcurW := by
  have h := cfg.capBound
  have p : 0 < 2 ^ cfg.wcurW := Nat.two_pow_pos _
  omega

end Sys2Proof
end

