-- ==== Sys2Proof/Laws/Memory.lean ====
section
/-! SUPPORT. The basic laws of the two memories: read after write, the other addresses, the canonical form
(spec/20_memory.md R60 to R62). -/

namespace Sys2Proof.Machine

variable {α : Type}

@[simp] theorem Memory.read_nil (a : Nat) : Memory.read ([] : List (Nat × α)) a = none := rfl

@[simp] theorem Memory.read_write_same (m : List (Nat × α)) (a : Nat) (v : α) :
    Memory.read (Memory.write m a v) a = some v := by
  induction m with
  | nil => simp [Memory.write, Memory.read]
  | cons c rest ih =>
    obtain ⟨k, u⟩ := c
    unfold Memory.write
    split
    · simp [Memory.read]
    · split
      · simp [Memory.read]
      · rename_i h1 h2
        simp [Memory.read, h2, ih]

theorem Memory.read_write_other (m : List (Nat × α)) {a k : Nat} (v : α) (h : k ≠ a) :
    Memory.read (Memory.write m a v) k = Memory.read m k := by
  induction m with
  | nil => simp [Memory.write, Memory.read, h]
  | cons c rest ih =>
    obtain ⟨j, u⟩ := c
    unfold Memory.write
    split
    · simp [Memory.read, h]
    · split
      · rename_i h2
        subst h2
        simp [Memory.read, h]
      · simp [Memory.read, ih]

theorem Memory.read_write (m : List (Nat × α)) (a k : Nat) (v : α) :
    Memory.read (Memory.write m a v) k = if k = a then some v else Memory.read m k := by
  split
  · rename_i h; subst h; simp
  · rename_i h; exact Memory.read_write_other m v h

theorem Memory.risesFrom_write {lo hi : Nat} (m : List (Nat × α)) {a : Nat} (v : α) (h : Memory.risesFrom lo hi m = true)
    (hl : lo ≤ a) (ha : a < hi) : Memory.risesFrom lo hi (Memory.write m a v) = true := by
  induction m generalizing lo with
  | nil => simp [Memory.write, Memory.risesFrom, hl, ha]
  | cons c rest ih =>
    obtain ⟨k, u⟩ := c
    simp only [Memory.risesFrom, Bool.and_eq_true, decide_eq_true_eq] at h
    unfold Memory.write
    split
    · rename_i h1
      simp only [Memory.risesFrom, Bool.and_eq_true, decide_eq_true_eq]
      exact ⟨⟨hl, ha⟩, ⟨h1, h.1.2⟩, h.2⟩
    · split
      · rename_i h2
        subst h2
        simp only [Memory.risesFrom, Bool.and_eq_true, decide_eq_true_eq]
        exact ⟨⟨hl, ha⟩, h.2⟩
      · simp only [Memory.risesFrom, Bool.and_eq_true, decide_eq_true_eq]
        exact ⟨h.1, ih h.2 (by omega)⟩

/-- A write inside the space keeps the canonical form. -/
theorem Memory.wf_write {size : Nat} {m : List (Nat × α)} {a : Nat} (v : α) (h : Memory.wf size m = true)
    (ha : a < size) : Memory.wf size (Memory.write m a v) = true :=
  Memory.risesFrom_write m v h (Nat.zero_le a) ha

@[simp] theorem Memory.wf_nil (size : Nat) : Memory.wf size ([] : List (Nat × α)) = true := rfl

theorem Memory.read_of_risesFrom {lo hi : Nat} {m : List (Nat × α)} (h : Memory.risesFrom lo hi m = true) {a : Nat} {v : α}
    (hr : Memory.read m a = some v) : lo ≤ a ∧ a < hi := by
  induction m generalizing lo with
  | nil => simp at hr
  | cons c rest ih =>
    obtain ⟨k, u⟩ := c
    simp only [Memory.risesFrom, Bool.and_eq_true, decide_eq_true_eq] at h
    simp only [Memory.read] at hr
    split at hr
    · rename_i hk; subst hk; exact h.1
    · have := ih h.2 hr; omega

/-- In canonical form every address that holds a value is in the space. -/
theorem Memory.read_lt {size : Nat} {m : List (Nat × α)} (h : Memory.wf size m = true) {a : Nat} {v : α}
    (hr : Memory.read m a = some v) : a < size := (Memory.read_of_risesFrom h hr).2

/-- Reading a range succeeds when every location of it holds a value. -/
theorem Memory.readRange_of_stored (m : List (Nat × α)) (a n : Nat)
    (h : ∀ k, a ≤ k → k < a + n → (Memory.read m k).isSome = true) :
    ∃ vs, Memory.readRange m a n = .ok vs ∧ vs.length = n := by
  induction n generalizing a with
  | zero => exact ⟨[], rfl, rfl⟩
  | succ n ih =>
    obtain ⟨v, hv⟩ := Option.isSome_iff_exists.mp (h a (Nat.le_refl a) (by omega))
    obtain ⟨vs, hvs, hl⟩ := ih (a + 1) (fun k h1 h2 => h k (by omega) (by omega))
    exact ⟨v :: vs, by simp [Memory.readRange, hv, hvs], by simp [hl]⟩

/-- A range reads the same from two memories that agree on it. -/
theorem Memory.readRange_congr {m m' : List (Nat × α)} (a n : Nat)
    (h : ∀ k, a ≤ k → k < a + n → Memory.read m k = Memory.read m' k) :
    Memory.readRange m a n = Memory.readRange m' a n := by
  induction n generalizing a with
  | zero => rfl
  | succ n ih =>
    simp only [Memory.readRange]
    rw [h a (Nat.le_refl a) (by omega), ih (a + 1) (fun k h1 h2 => h k (by omega) (by omega))]

/-- A range and the location after it. -/
theorem Memory.readRange_snoc {m : List (Nat × α)} {a n : Nat} {vs : List α} {v : α}
    (h : Memory.readRange m a n = .ok vs) (hv : Memory.read m (a + n) = some v) :
    Memory.readRange m a (n + 1) = .ok (vs ++ [v]) := by
  induction n generalizing a vs with
  | zero =>
    simp only [Memory.readRange, Except.ok.injEq] at h
    subst h
    simp only [Nat.add_zero] at hv
    simp [Memory.readRange, hv]
  | succ n ih =>
    rw [Memory.readRange] at h
    split at h
    · cases h
    · rename_i u hu
      split at h
      · cases h
      · rename_i us hus
        cases h
        have h2 := ih hus (by rw [← hv]; congr 1; omega)
        rw [Memory.readRange, hu]
        simp only [h2, List.cons_append]

end Sys2Proof.Machine
end

