-- ==== Sys2Proof/Laws/State.lean ====
section
/-! SUPPORT. One lemma per field for each named update of the state, all true by definition. -/

namespace Sys2Proof.Machine

@[simp] theorem State.still_cfg (s : State) : s.still.cfg = s.cfg := rfl
@[simp] theorem State.still_dec (s : State) : s.still.dec = s.dec := rfl
@[simp] theorem State.still_rb (s : State) : s.still.rb = s.rb := rfl
@[simp] theorem State.still_out (s : State) : s.still.out = Out.quiet := rfl
@[simp] theorem State.still_ports (s : State) : s.still.ports = s.ports := rfl
@[simp] theorem State.still_queue (s : State) : s.still.queue = s.queue := rfl
@[simp] theorem State.still_fresh (s : State) : s.still.fresh = s.fresh := rfl

@[simp] theorem State.wait_cfg (s : State) (i : Instr) : (s.wait i).cfg = s.cfg := rfl
@[simp] theorem State.wait_dec (s : State) (i : Instr) : (s.wait i).dec = s.dec := rfl
@[simp] theorem State.wait_rb (s : State) (i : Instr) : (s.wait i).rb = s.rb := rfl
@[simp] theorem State.wait_out (s : State) (i : Instr) : (s.wait i).out = Out.quiet := rfl
@[simp] theorem State.wait_ports (s : State) (i : Instr) : (s.wait i).ports = s.ports := rfl
@[simp] theorem State.wait_queue (s : State) (i : Instr) : (s.wait i).queue = s.queue ++ [i] := rfl
@[simp] theorem State.wait_fresh (s : State) (i : Instr) : (s.wait i).fresh = s.fresh := rfl

@[simp] theorem State.owe_cfg (s : State) (is : List Instr) : (s.owe is).cfg = s.cfg := rfl
@[simp] theorem State.owe_dec (s : State) (is : List Instr) : (s.owe is).dec = s.dec := rfl
@[simp] theorem State.owe_rb (s : State) (is : List Instr) : (s.owe is).rb = s.rb := rfl
@[simp] theorem State.owe_out (s : State) (is : List Instr) : (s.owe is).out = s.out := rfl
@[simp] theorem State.owe_ports (s : State) (is : List Instr) : (s.owe is).ports = s.ports := rfl
@[simp] theorem State.owe_queue (s : State) (is : List Instr) : (s.owe is).queue = is ++ s.queue := rfl
@[simp] theorem State.owe_fresh (s : State) (is : List Instr) : (s.owe is).fresh = s.fresh := rfl

@[simp] theorem State.setCtx_cfg (s : State) (r : Nat) (c : RdCtx) : (s.setCtx r c).cfg = s.cfg := rfl
@[simp] theorem State.setCtx_dec (s : State) (r : Nat) (c : RdCtx) : (s.setCtx r c).dec = s.dec := rfl
@[simp] theorem State.setCtx_slots (s : State) (r : Nat) (c : RdCtx) : (s.setCtx r c).rb.slots = s.rb.slots := rfl
@[simp] theorem State.setCtx_wcur (s : State) (r : Nat) (c : RdCtx) : (s.setCtx r c).rb.wcur = s.rb.wcur := rfl
@[simp] theorem State.setCtx_count (s : State) (r : Nat) (c : RdCtx) : (s.setCtx r c).rb.count = s.rb.count := rfl
@[simp] theorem State.setCtx_rd (s : State) (r : Nat) (c : RdCtx) : (s.setCtx r c).rb.rd = s.rb.rd.set r c := rfl
@[simp] theorem State.setCtx_out (s : State) (r : Nat) (c : RdCtx) : (s.setCtx r c).out = s.out := rfl
@[simp] theorem State.setCtx_ports (s : State) (r : Nat) (c : RdCtx) : (s.setCtx r c).ports = s.ports := rfl
@[simp] theorem State.setCtx_queue (s : State) (r : Nat) (c : RdCtx) : (s.setCtx r c).queue = s.queue := rfl
@[simp] theorem State.setCtx_fresh (s : State) (r : Nat) (c : RdCtx) : (s.setCtx r c).fresh = s.fresh := rfl

/-- A context replaced reads as its replacement. -/
theorem State.setCtx_ctx_same (s : State) {r : Nat} (c : RdCtx) (h : s.hasCtx r = true) : (s.setCtx r c).ctx r = c := by
  have hr : r < s.rb.rd.length := by simpa [State.hasCtx] using h
  simp [State.ctx, List.getD, hr]

/-- The other contexts read as before (R75). -/
theorem State.setCtx_ctx_other (s : State) {r q : Nat} (c : RdCtx) (h : q ≠ r) : (s.setCtx r c).ctx q = s.ctx q := by
  simp [State.ctx, List.getD, Ne.symm h]

@[simp] theorem Dec.closed_st (d : Dec) (m : List Host.Cell) : (d.closed m).st = .waitingForStart := rfl
@[simp] theorem Dec.closed_cnt (d : Dec) (m : List Host.Cell) : (d.closed m).cnt = 0 := rfl
@[simp] theorem Dec.closed_buf (d : Dec) (m : List Host.Cell) : (d.closed m).buf = m := rfl
@[simp] theorem Dec.closed_ckAcc (d : Dec) (m : List Host.Cell) : (d.closed m).ckAcc = d.ckAcc := rfl
@[simp] theorem Dec.closed_ckDropCnt (d : Dec) (m : List Host.Cell) : (d.closed m).ckDropCnt = d.ckDropCnt := rfl

@[simp] theorem RdCtx.beaten_w (cap : Nat) (c : RdCtx) (x : Sample) : (c.beaten cap x).w = c.w := rfl
@[simp] theorem RdCtx.beaten_m (cap : Nat) (c : RdCtx) (x : Sample) : (c.beaten cap x).m = c.m := rfl
@[simp] theorem RdCtx.beaten_i (cap : Nat) (c : RdCtx) (x : Sample) : (c.beaten cap x).i = beatIndexSucc cap c.i := rfl
@[simp] theorem RdCtx.beaten_busy (cap : Nat) (c : RdCtx) (x : Sample) : (c.beaten cap x).busy = !(c.last cap) := rfl
@[simp] theorem RdCtx.beaten_got (cap : Nat) (c : RdCtx) (x : Sample) : (c.beaten cap x).got = c.got ++ [x] := rfl

@[simp] theorem RdCtx.released_busy (c : RdCtx) : c.released.busy = false := rfl
@[simp] theorem RdCtx.released_w (c : RdCtx) : c.released.w = c.w := rfl
@[simp] theorem RdCtx.released_m (c : RdCtx) : c.released.m = c.m := rfl
@[simp] theorem RdCtx.released_i (c : RdCtx) : c.released.i = c.i := rfl
@[simp] theorem RdCtx.released_got (c : RdCtx) : c.released.got = c.got := rfl

@[simp] theorem snapshot_w (s : State) (n : Nat) : (snapshot s n).w = s.rb.wcur := rfl
@[simp] theorem snapshot_m (s : State) (n : Nat) : (snapshot s n).m = readLength s n := rfl
@[simp] theorem snapshot_i (s : State) (n : Nat) : (snapshot s n).i = 0 := rfl
@[simp] theorem snapshot_got (s : State) (n : Nat) : (snapshot s n).got = [] := rfl
@[simp] theorem snapshot_busy (s : State) (n : Nat) : (snapshot s n).busy = (readLength s n != 0) := rfl

end Sys2Proof.Machine
end

