-- ==== Sys2Proof/Laws/Ops.lean ====
section
/-! SUPPORT. For each shared operation, what it can do, said once: the inversion and introduction lemmas that proofs cite
instead of unfolding. -/

namespace Sys2Proof.Machine

/-! ## Outcomes -/

@[simp] theorem settle_ok (s : State) : settle (.ok s) = .next s := rfl
@[simp] theorem settle_error (f : Fault) : settle (.error f) = .fault f := rfl

theorem settle_next {e : Except Fault State} {t : State} (h : settle e = .next t) : e = .ok t := by
  cases e with
  | ok s => simpa using h
  | error f => simp at h

/-! ## The frame buffer -/

theorem bufStore_ok {cfg : Config} {m m' : List Host.Cell} {k : Nat} {b : Byte} (h : bufStore cfg m k b = .ok m') :
    k < cfg.maxFrame ∧ m' = Memory.write m k b := by
  unfold bufStore at h
  split at h
  · rename_i hk; cases h; exact ⟨hk, rfl⟩
  · cases h

theorem bufStore_of_lt {cfg : Config} (m : List Host.Cell) {k : Nat} (b : Byte) (h : k < cfg.maxFrame) :
    bufStore cfg m k b = .ok (Memory.write m k b) := by
  rw [bufStore, if_pos h]

theorem bufByte_ok {cfg : Config} {m : List Host.Cell} {k : Nat} {b : Byte} : bufByte cfg m k = .ok b ↔ Memory.read m k = some b := by
  unfold bufByte
  split <;> simp_all

theorem bufBytes_ok {cfg : Config} {m : List Host.Cell} {k n : Nat} {bs : List Byte} :
    bufBytes cfg m k n = .ok bs ↔ Memory.readRange m k n = .ok bs := by
  unfold bufBytes
  split <;> simp_all

/-! ## Taking a byte -/

/-- The state after a byte is stored at `k` and `cnt`, `ck_acc`, `st` are set. -/
theorem takeByte_of_lt {k : Nat} (cnt : Count9) (acc : Half) (st : FsmState) (b : Byte) (s : State)
    (h : k < s.cfg.maxFrame) :
    takeByte k cnt acc st b s =
      .ok { s with dec := { s.dec with buf := Memory.write s.dec.buf k b, cnt := cnt, ckAcc := acc, st := st },
                   out := Out.quiet } := by
  simp [takeByte, bufStore_of_lt _ _ h]

theorem takeByte_ok {k : Nat} {cnt : Count9} {acc : Half} {st : FsmState} {b : Byte} {s t : State}
    (h : takeByte k cnt acc st b s = .ok t) :
    k < s.cfg.maxFrame ∧
      t = { s with dec := { s.dec with buf := Memory.write s.dec.buf k b, cnt := cnt, ckAcc := acc, st := st },
                   out := Out.quiet } := by
  unfold takeByte at h
  split at h
  · rename_i m hm
    obtain ⟨hk, rfl⟩ := bufStore_ok hm
    cases h
    exact ⟨hk, rfl⟩
  · cases h

/-! ## Classes -/

theorem inClass_selected {c : ByteClass} {b : Byte} {s : State} (e : Except Fault State)
    (h : classify s.cfg s.dec b = .ok c) : inClass c b s e = settle e := by simp [inClass, h]

theorem inClass_next {c : ByteClass} {b : Byte} {s t : State} {e : Except Fault State} (h : inClass c b s e = .next t) :
    classify s.cfg s.dec b = .ok c ∧ e = .ok t := by
  unfold inClass at h
  split at h
  · split at h
    · rename_i c' hc heq
      subst heq
      exact ⟨hc, settle_next h⟩
    · cases h
  · cases h

/-- A `BYTECLASS` operation is its class's effect, where the class is selected (R104). -/
theorem exec_ofClass (c : ByteClass) (b : Byte) (s : State) : exec (ofClass c b) s = inClass c b s (doClass c b s) := by
  cases c <;> rfl

/-- The two ways `CK2` can end (R131). -/
theorem doCk2_ok {b : Byte} {s t : State} (h : doCk2 b s = .ok t) :
    s.dec.cnt.toNat < s.cfg.maxFrame ∧ ∃ first, Memory.read s.dec.buf (s.dec.cnt - 1).toNat = some first ∧
      ((ckAccepts s.cfg (rxCk s.cfg first b) s.dec.ckAcc = true ∧
          ∃ fr, frameRecord s.cfg (Memory.write s.dec.buf s.dec.cnt.toNat b) (rxCk s.cfg first b) = .ok fr ∧
            t = { s with dec := s.dec.closed (Memory.write s.dec.buf s.dec.cnt.toNat b),
                         out := { Out.quiet with frame := some fr } }) ∨
       (ckAccepts s.cfg (rxCk s.cfg first b) s.dec.ckAcc = false ∧
          t = { s with dec := { s.dec.closed (Memory.write s.dec.buf s.dec.cnt.toNat b) with
                                  ckDropCnt := dropSucc s.cfg s.dec.ckDropCnt },
                       out := { Out.quiet with ckDrop := true } })) := by
  unfold doCk2 at h
  split at h
  · cases h
  · rename_i m hm
    obtain ⟨hk, rfl⟩ := bufStore_ok hm
    refine ⟨hk, ?_⟩
    split at h
    · cases h
    · rename_i first hf
      refine ⟨first, bufByte_ok.mp hf, ?_⟩
      split at h
      · rename_i ha
        split at h
        · cases h
        · rename_i fr hfr
          cases h
          exact .inl ⟨ha, fr, hfr, rfl⟩
      · rename_i ha
        cases h
        exact .inr ⟨by simpa using ha, rfl⟩

/-- The shape of every class but `NOISE` and `CK2`: the byte goes to the class's store index (R122, R124 to R130). -/
theorem doClass_takes {c : ByteClass} {b : Byte} {s t : State} (h : doClass c b s = .ok t) (hn : c ≠ .noise)
    (hk : c ≠ .ck2) : ∃ k cnt acc st, storeIndex c s.dec = some k ∧ takeByte k cnt acc st b s = .ok t := by
  cases c
  case noise => exact absurd rfl hn
  case ck2 => exact absurd rfl hk
  all_goals exact ⟨_, _, _, _, rfl, h⟩

/-- No class changes anything but DEC and the outputs (R2). -/
theorem doClass_env {c : ByteClass} {b : Byte} {s t : State} (h : doClass c b s = .ok t) :
    t.rb = s.rb ∧ t.cfg = s.cfg ∧ t.ports = s.ports ∧ t.queue = s.queue ∧ t.fresh = s.fresh := by
  by_cases hn : c = .noise
  · subst hn
    cases h
    exact ⟨rfl, rfl, rfl, rfl, rfl⟩
  by_cases hk : c = .ck2
  · subst hk
    obtain ⟨_, _, _, h'⟩ := doCk2_ok h
    rcases h' with ⟨_, _, _, rfl⟩ | ⟨_, rfl⟩ <;> exact ⟨rfl, rfl, rfl, rfl, rfl⟩
  obtain ⟨_, _, _, _, _, h'⟩ := doClass_takes h hn hk
  obtain ⟨_, rfl⟩ := takeByte_ok h'
  exact ⟨rfl, rfl, rfl, rfl, rfl⟩

/-- What one `SUBMIT` can do (R120): the effect of the class R121 selects. -/
theorem execSubmit_next {b : Byte} {s t : State} (h : execSubmit b s = .next t) :
    ∃ c, classify s.cfg s.dec b = .ok c ∧ doClass c b s = .ok t := by
  unfold execSubmit at h
  split at h
  · rename_i c hc
    exact ⟨c, hc, settle_next h⟩
  · cases h

/-! ## Reader contexts -/

theorem doBeat_ok {r : Nat} {s t : State} (h : doBeat r s = .ok t) :
    ∃ x, Memory.read s.rb.slots (s.rptr r) = some x ∧
      t = { s.setCtx r ((s.ctx r).beaten s.cfg.cap x) with
            out := { Out.quiet with beat := some { ctx := r, sample := x, last := (s.ctx r).last s.cfg.cap } } } := by
  unfold doBeat at h
  split at h
  · cases h
  · rename_i x hx
    cases h
    exact ⟨x, hx, rfl⟩

theorem doBeat_of_read {r : Nat} {s : State} {x : Sample} (h : Memory.read s.rb.slots (s.rptr r) = some x) :
    doBeat r s = .ok { s.setCtx r ((s.ctx r).beaten s.cfg.cap x) with
      out := { Out.quiet with beat := some { ctx := r, sample := x, last := (s.ctx r).last s.cfg.cap } } } := by
  simp [doBeat, h]

/-- What one beat operation can do (R158, R103). -/
theorem execLatestBeat_next {r : Nat} {s t : State} (h : execLatestBeat r s = .next t) :
    s.hasCtx r = true ∧
      (((s.ctx r).busy = true ∧ doBeat r s = .ok t) ∨ ((s.ctx r).busy = false ∧ t = s.still)) := by
  unfold execLatestBeat at h
  split at h
  · cases h
  · rename_i hc
    refine ⟨by simpa using hc, ?_⟩
    split at h
    · rename_i hb; exact .inl ⟨hb, settle_next h⟩
    · rename_i hb; cases h; exact .inr ⟨by simpa using hb, rfl⟩

/-- What one request can do (R155, R156). -/
theorem execLatestReq_next {r : Nat} {n : Nat} {s t : State} (h : execLatestReq r n s = .next t) :
    s.hasCtx r = true ∧
      (((s.ctx r).busy = true ∧ t = s.wait (.latestReq r n)) ∨ ((s.ctx r).busy = false ∧ t = doRequest r n s)) := by
  unfold execLatestReq at h
  split at h
  · cases h
  · rename_i hc
    refine ⟨by simpa using hc, ?_⟩
    split at h
    · rename_i hb; cases h; exact .inl ⟨hb, rfl⟩
    · rename_i hb; cases h; exact .inr ⟨by simpa using hb, rfl⟩

/-- A busy context is one `firstBusy` finds (R159). -/
theorem firstBusy_some {rd : List RdCtx} {r : Nat} (h : firstBusy rd = some r) :
    ∃ hr : r < rd.length, (rd[r]).busy = true := by
  unfold firstBusy at h
  rw [List.findIdx?_eq_some_iff_getElem] at h
  obtain ⟨hr, hb, _⟩ := h
  exact ⟨hr, hb⟩

/-! ## Runs -/

@[simp] theorem runOps_nil (s : State) : runOps [] s = .next (s, []) := rfl

/-- A run of operations takes its first step first. -/
theorem runOps_cons {i : Instr} {is : List Instr} {s t u : State} {outs : List Out} (h : exec i s = .next t)
    (ht : runOps is t = .next (u, outs)) : runOps (i :: is) s = .next (u, t.out :: outs) := by
  simp [runOps, h, ht]

/-- A run of `is ++ js` is a run of `is` and then one of `js`. -/
theorem runOps_append {is js : List Instr} {s t u : State} {o p : List Out}
    (h1 : runOps is s = .next (t, o)) (h2 : runOps js t = .next (u, p)) :
    runOps (is ++ js) s = .next (u, o ++ p) := by
  induction is generalizing s o with
  | nil =>
    cases h1
    simpa using h2
  | cons i is ih =>
    simp only [runOps] at h1
    split at h1
    · cases h1
    · cases h1
    · rename_i v hv
      split at h1
      · cases h1
      · cases h1
      · rename_i w outs hw
        cases h1
        simp only [List.cons_append, runOps, hv, ih hw]

end Sys2Proof.Machine
end

