-- ==== Sys2Proof/Laws/Step.lean ====
section
/-! SUPPORT. What `fetch` and `step` do in each case, said once. -/

namespace Sys2Proof.Machine

/-- A word with `rst = 1` is `RESET` (R103). -/
theorem decode_of_rst {w : PortWord} (h : w.ctl.getLsbD 3 = true) : decode w = .reset ∧ w.rest = [] := by
  have key : ∀ c : BitVec 4, c.getLsbD 3 = true → rowHits 0b1000 0b1000 c = true := by decide
  unfold decode PortWord.rest
  rw [if_pos (key w.ctl h), if_pos (key w.ctl h)]
  exact ⟨rfl, rfl⟩

/-- A presented operation has its turn. -/
theorem fetch_of_ports {s : State} {w : PortWord} {ws : List PortWord} (h : s.ports = w :: ws) (hd : decode w ≠ .idle) :
    fetch s = presentedTurn (decode w) { s with ports := w.rest ++ ws } := by
  simp [fetch, h, hd]

/-- A word of the idle row gives the turn away. -/
theorem fetch_of_idle {s : State} {w : PortWord} {ws : List PortWord} (h : s.ports = w :: ws) (hd : decode w = .idle) :
    fetch s = quietTurn { s with ports := w.rest ++ ws } := by
  simp [fetch, h, hd]

/-- With nothing presented the turn is quiet. -/
theorem fetch_of_nil {s : State} (h : s.ports = []) : fetch s = quietTurn s := by simp [fetch, h]

/-- Among operations of which none is the agent's there is no first one. -/
theorem takeFirst_none {a : Agent} {is : List Instr} : takeFirst a is = none ↔ ∀ i ∈ is, agentOf i ≠ some a := by
  induction is with
  | nil => simp [takeFirst]
  | cons i is ih =>
    unfold takeFirst
    split
    · rename_i h; simp [h]
    · rename_i h
      split
      · rename_i j others hj
        rw [hj] at ih
        simp only [reduceCtorEq, false_iff] at ih
        simp only [reduceCtorEq, false_iff, List.forall_mem_cons, not_and]
        exact fun _ => ih
      · rename_i hj
        simpa [h] using ih.mp hj

/-- The first operation of an agent, and what is left: the agent's others in their order, and every other agent's. -/
theorem takeFirst_some {a : Agent} {is others : List Instr} {i : Instr} (h : takeFirst a is = some (i, others)) :
    agentOf i = some a ∧ is.filter (fun j => agentOf j == some a) = i :: others.filter (fun j => agentOf j == some a) ∧
      (∀ b, b ≠ a → is.filter (fun j => agentOf j == some b) = others.filter (fun j => agentOf j == some b)) ∧
      (∀ j, j = i ∨ j ∈ others → j ∈ is) := by
  induction is generalizing others with
  | nil => simp [takeFirst] at h
  | cons k is ih =>
    unfold takeFirst at h
    split at h
    · rename_i hk
      cases h
      refine ⟨hk, by simp [hk], fun b hb => ?_, by simp⟩
      have : agentOf i ≠ some b := by rw [hk]; simpa using Ne.symm hb
      simp [this]
    · rename_i hk
      split at h
      · rename_i j js hj
        cases h
        obtain ⟨h1, h2, h3, h4⟩ := ih hj
        refine ⟨h1, by simpa [hk] using h2, fun b hb => ?_, ?_⟩
        · simp only [List.filter_cons, h3 b hb]
        · rintro x (rfl | hx)
          · exact List.mem_cons_of_mem _ (h4 _ (.inl rfl))
          · rcases List.mem_cons.mp hx with rfl | hx
            · simp
            · exact List.mem_cons_of_mem _ (h4 _ (.inr hx))
      · cases h

/-- An operation of no agent is performed when it is presented. -/
theorem presentedTurn_of_none {s : State} {i : Instr} (h : agentOf i = none) : presentedTurn i s = (i, s) := by
  simp [presentedTurn, h]

/-- An operation whose agent has nothing pending is performed when it is presented. -/
theorem presentedTurn_of_first {s : State} {i : Instr} {a : Agent} (h : agentOf i = some a)
    (hq : ∀ j ∈ s.queue, agentOf j ≠ some a) : presentedTurn i s = (i, s) := by
  simp [presentedTurn, h, takeFirst_none.mpr hq]

/-- An operation whose agent has something pending joins it, and the first of that has the turn. -/
theorem presentedTurn_of_later {s : State} {i j : Instr} {a : Agent} {others : List Instr} (h : agentOf i = some a)
    (hq : takeFirst a s.queue = some (j, others)) :
    presentedTurn i s = pendingTurn j (others ++ [i]) { s with queue := s.queue ++ [i] } := by
  simp [presentedTurn, h, hq]

/-- A pending operation that needs no free context, or has it, is performed. -/
theorem pendingTurn_of_free {s : State} {i : Instr} (others : List Instr)
    (hf : ∀ r, needsFree i = some r → (s.ctx r).busy = false) :
    pendingTurn i others s = (i, { s with queue := others }) := by
  unfold pendingTurn
  split
  · rename_i r hr
    simp [hf r hr]
  · rfl

/-- While a pending operation waits, the context it waits for beats. -/
theorem pendingTurn_of_wait {s : State} {i : Instr} (others : List Instr) {r : Nat} (hf : needsFree i = some r)
    (hb : (s.ctx r).busy = true) : pendingTurn i others s = (.latestBeat r, s) := by
  simp [pendingTurn, hf, hb]

/-- The two ways the turn of a pending operation goes. -/
theorem pendingTurn_cases (i : Instr) (others : List Instr) (s : State) :
    pendingTurn i others s = (i, { s with queue := others }) ∨
      ∃ r, needsFree i = some r ∧ (s.ctx r).busy = true ∧ pendingTurn i others s = (.latestBeat r, s) := by
  unfold pendingTurn
  split
  · rename_i r hr
    split
    · rename_i hb; exact .inr ⟨r, hr, hb, rfl⟩
    · exact .inl rfl
  · exact .inl rfl

/-- The first pending operation has a quiet turn. -/
theorem quietTurn_of_queue {s : State} {i : Instr} {is : List Instr} (h : s.queue = i :: is) :
    quietTurn s = pendingTurn i is s := by
  unfold quietTurn
  rw [h]

/-- With nothing pending a busy context beats. -/
theorem quietTurn_of_busy {s : State} {r : Nat} (h : s.queue = []) (hb : firstBusy s.rb.rd = some r) :
    quietTurn s = (.latestBeat r, s) := by
  simp [quietTurn, h, hb]

/-- With nothing pending and no context busy the row is idle. -/
theorem quietTurn_of_idle {s : State} (h : s.queue = []) (hb : firstBusy s.rb.rd = none) :
    quietTurn s = (.idle, s) := by
  simp [quietTurn, h, hb]

/-- A context that is not busy where `firstBusy` finds none. -/
theorem firstBusy_none {s : State} : firstBusy s.rb.rd = none ↔ ∀ r, (s.ctx r).busy = false := by
  unfold firstBusy
  rw [List.findIdx?_eq_none_iff]
  constructor
  · intro h r
    unfold State.ctx
    by_cases hr : r < s.rb.rd.length
    · rw [List.getD_eq_getElem _ _ hr]
      exact h _ (List.getElem_mem hr)
    · rw [List.getD_eq_default _ _ (by omega)]
      rfl
  · intro h c hc
    obtain ⟨r, hr, rfl⟩ := List.mem_iff_getElem.mp hc
    have := h r
    rwa [State.ctx, List.getD_eq_getElem _ _ hr] at this

/-- One step, when the operation it fetches is known. -/
theorem step_of_fetch {s s' : State} {i : Instr} (h : fetch s = (i, s')) : step s = exec i s' := by
  simp [step, h]

@[simp] theorem runSteps_zero (s : State) : runSteps 0 s = .next (s, []) := rfl

/-- A run of steps takes its first step first. -/
theorem runSteps_succ {k : Nat} {s t u : State} {outs : List Out} (h : step s = .next t)
    (ht : runSteps k t = .next (u, outs)) : runSteps (k + 1) s = .next (u, t.out :: outs) := by
  simp [runSteps, h, ht]

end Sys2Proof.Machine
end

