-- ==== Sys2Proof/Tests/Slice0.lean ====
section
/-! SUPPORT. Tests of single steps, with expected values from spec/95_test_vectors.md (named V1, T20, ... below) or worked
by hand from the rule cited; refusals of ill-formed terms; and, for every obligation with hypotheses, a concrete state and
operands that meet them. -/

set_option exponentiation.threshold 512

namespace Sys2Proof.Tests

open Sys2Proof Sys2Proof.Machine

/-! ## Small states -/

/-- The default configuration with a ring of four slots. -/
def tiny : Config := { Config.reference with cap := 4, capPos := by decide, capBound := by decide }

/-- `tiny` with every frame accepted. -/
def tinyBypass : Config := { tiny with ckMode := .bypass }

/-- `tiny` with the high trailer byte first. -/
def tinyHigh : Config := { tiny with ckOrder := .highFirst }

/-- The bytes of frame T2 up to its first trailer byte. -/
def t2 : List Byte := [0xFE, 0x03, 0x07, 0x01, 0x01, 0x1E, 0xAA, 0xBB, 0xCC, 0xC3]

/-- The bytes of frame T1 up to its first trailer byte. -/
def t1 : List Byte := [0xFE, 0x00, 0x01, 0x02, 0x03, 0x00, 0xE3]

/-- A decoder that has stored `bytes`. -/
def decoder (st : FsmState) (bytes : List Byte) (acc : Half) : Dec :=
  { st := st, cnt := BitVec.ofNat 9 bytes.length, buf := (List.range bytes.length).zip bytes, ckAcc := acc,
    ckDropCnt := 0 }

/-- The state after reset but for the decoder. -/
def decoding (cfg : Config) (st : FsmState) (bytes : List Byte) (acc : Half) : State :=
  { State.resetOf cfg with dec := decoder st bytes acc }

/-- A decoder in a payload of 255 bytes, at `cnt`. -/
def longFrame (cnt : Count9) : Dec := { decoder .accumulatingPayload [0xFE, 0xFF] 0 with cnt := cnt }

/-- A sample that carries a sequence number only. -/
def smp (n : Nat) : Sample := n

/-- The ring of T21 after its six pushes, with context 0 as given. -/
def t21 (c : RdCtx) : State :=
  { State.resetOf tiny with
    rb := { slots := [(0, smp 5), (1, smp 6), (2, smp 3), (3, smp 4)], wcur := 6, count := 4, rd := [c, RdCtx.idle] } }

/-- A context with `i` of `m` beats behind it, from the snapshot `w`. -/
def reading (w : Nat) (m i : Nat) (got : List Sample) : RdCtx := { busy := true, w := w, m := m, i := i, got := got }

/-- The outcome is a next state with the property. -/
def lands (o : Host.Outcome State Fault Refusal) (p : State → Bool) : Bool :=
  match o with
  | .next t => p t
  | .fault _ => false
  | .refused _ => false

/-- The outcome is this refusal. -/
def refuses (o : Host.Outcome State Fault Refusal) (r : Refusal) : Bool :=
  match o with
  | .next _ => false
  | .fault _ => false
  | .refused q => q == r

/-- `st`, `cnt`, `ck_acc` and one buffer byte. -/
def decIs (t : State) (st : FsmState) (cnt : Nat) (acc : Half) (k : Nat) (b : Byte) : Bool :=
  t.dec.st == st && t.dec.cnt.toNat == cnt && t.dec.ckAcc == acc && Memory.read t.dec.buf k == some b &&
    t.out == Out.quiet

/-! ## Ill-formed terms -/

theorem test_wf_refuses_request_of_absent_context : (Instr.latestReq 2 1).wf tiny = false := by decide
theorem test_wf_refuses_beat_of_absent_context : (Instr.latestBeat 2).wf tiny = false := by decide
theorem test_wf_refuses_latest_of_absent_context : (Instr.latest 2 1).wf tiny = false := by decide
theorem test_wf_refuses_batch_of_absent_context : (Instr.getLatestBatch 2 1).wf tiny = false := by decide
theorem test_wf_refuses_start_of_another_byte : (Instr.start 0xFD).wf tiny = false := by decide
theorem test_wf_refuses_noise_of_the_marker : (Instr.noise 0xFE).wf tiny = false := by decide
theorem test_wf_refuses_a_sample_too_wide : (Instr.push (2 ^ 296)).wf tiny = false := by decide
theorem test_wf_refuses_an_n_too_wide : (Instr.latestReq 0 (2 ^ 32)).wf tiny = false := by decide
theorem test_wf_refuses_a_latest_n_too_wide : (Instr.latest 0 (2 ^ 32)).wf tiny = false := by decide
theorem test_wf_accepts_the_last_context : (Instr.latestReq 1 0).wf tiny = true := by decide

/-! ## Decoding (R103, R104, R100) -/

theorem test_decode_reset : decode { ctl := 0b1000#4 } = .reset := by decide
theorem test_decode_submit : decode { ctl := 0b0100#4, inByte := 0b11111110#8 } = .submit 0xFE := by decide
theorem test_decode_push : decode { ctl := 0b0010#4, pushSample := 7 } = .push 7 := by decide
theorem test_decode_request : decode { ctl := 0b0001#4, ctx := some 1, rdN := 5 } = .latestReq 1 5 := by decide
theorem test_decode_beat : decode { ctl := 0b0000#4, ctx := some 0 } = .latestBeat 0 := by decide
theorem test_decode_idle : decode { ctl := 0b0000#4 } = .idle := by decide
/-- T41. -/
theorem test_decode_reset_wins :
    decode { ctl := 0b1110#4, inByte := 0xFE } = .reset ∧ PortWord.rest { ctl := 0b1110#4, inByte := 0xFE } = [] := by
  decide
/-- R222: of three strobes the `SUBMIT` is first, and the request and the push are still presented. -/
theorem test_decode_submit_is_first :
    decode { ctl := 0b0111#4, inByte := 1 } = .submit 1 ∧
    (PortWord.rest { ctl := 0b0111#4, inByte := 1 }).map (·.ctl) = [0b0011#4] := by decide
theorem test_table_word_of_start : decodeTableWord 8 0b11111110 = some (.start 0xFE) := by decide
theorem test_table_word_of_noise : decodeTableWord 8 0b01010101 = some (.noise 0x55) := by decide
theorem test_table_word_of_push : decodeTableWord 8 0b0010 = some (.push 0) := by decide
theorem test_table_word_too_wide : decodeTableWord 8 256 = none := by decide
/-- T24. -/
theorem test_sample_packing :
    packSample { seq := 3, tag := 1, ts := 150, v1 := 0x3FF0000000000000, v2 := 0xC004000000000000, v3 := 0 } =
      0x0000000000000000C0040000000000003FF000000000000000000000000000960100000003 := by decide
/-- T24. -/
theorem test_sample_unpacking : (unpackSample 0x3FFFFFFFF).seq = 0xFFFFFFFF ∧ (unpackSample 0x3FFFFFFFF).tag = 3 := by
  decide

/-! ## The checksum (R99) -/

theorem test_ck_step : [crcStep 0xFFFF 0x00, crcStep 0xFFFF 0xFF, crcStep 0x0000 0x01, crcStep 0x1234 0x56] =
    [0x0F87, 0x00FF, 0x1189, 0x4006] := by decide
theorem test_ck_step_bit_serial :
    [crcStepSerial 0xFFFF 0x00, crcStepSerial 0xFFFF 0xFF, crcStepSerial 0x1234 0x56] = [0x0F87, 0x00FF, 0x4006] := by decide
theorem test_ck_fold : ckFold tiny [0x31, 0x32, 0x33, 0x34, 0x35, 0x36, 0x37, 0x38, 0x39] = 0x6F91 := by decide

/-! ## RESET and idle -/

/-- T40. -/
theorem test_reset_ends_a_read_and_a_frame :
    lands (exec .reset { t21 (reading 6 4 1 [smp 6]) with dec := { decoder .accumulatingPayload t1 0xB3E3 with ckDropCnt := 5 } })
      (fun t => t.dec.st == .waitingForStart && t.dec.cnt == 0 && t.dec.ckDropCnt == 0 && t.rb.wcur == 0 &&
        t.rb.count == 0 && t.empty && !t.full && !(t.ctx 0).busy && !t.decBusy && t.out == Out.quiet) = true := by decide
/-- T40: `latest(4)` right after gives nothing; R240: `w` is not written by `RESET`. -/
theorem test_reset_leaves_no_sample :
    lands (exec .reset (t21 (reading 6 4 1 [smp 6])))
      (fun t => readLength t 4 == 0 && Memory.read t.rb.slots 1 == none && (t.ctx 0).w == 6) = true := by decide
theorem test_idle_changes_nothing :
    lands (exec .idle (t21 (reading 6 4 1 [smp 6]))) (fun t => t == t21 (reading 6 4 1 [smp 6])) = true := by decide

/-! ## The byte classes -/

/-- V1. -/
theorem test_start : lands (exec (.start 0xFE) (State.resetOf tiny)) (decIs · .gotStart 1 0xFFFF 0 0xFE) = true := by decide
/-- V4. -/
theorem test_noise : lands (exec (.noise 0xFD) (State.resetOf tiny)) (fun t => t == State.resetOf tiny) = true := by decide
/-- V6: the marker's value is an ordinary length. -/
theorem test_len :
    lands (exec (.len 0xFE) (decoding tiny .gotStart (t2.take 1) 0xFFFF)) (decIs · .gotLength 2 0x1176 1 0xFE) = true := by
  decide
/-- V7. -/
theorem test_seq :
    lands (exec (.seq 0x07) (decoding tiny .gotLength (t2.take 2) 0x3D1C)) (decIs · .gotSequence 3 0xAE6F 2 0x07) = true := by
  decide
/-- V8. -/
theorem test_sysid :
    lands (exec (.sysid 0x01) (decoding tiny .gotSequence (t2.take 3) 0xAE6F))
      (decIs · .gotSourceSystem 4 0x8AD6 3 0x01) = true := by decide
/-- V9. -/
theorem test_compid :
    lands (exec (.compid 0x01) (decoding tiny .gotSourceSystem (t2.take 4) 0x8AD6))
      (decIs · .gotSourceComponent 5 0xA2B8 4 0x01) = true := by decide
/-- V10. -/
theorem test_msgid :
    lands (exec (.msgid 0x1E) (decoding tiny .gotSourceComponent (t2.take 5) 0xA2B8))
      (decIs · .gotMessageId 6 0xC09E 5 0x1E) = true := by decide
/-- V11. -/
theorem test_payload_first :
    lands (exec (.payload 0xAA) (decoding tiny .gotMessageId (t2.take 6) 0xC09E))
      (decIs · .accumulatingPayload 7 0x7767 6 0xAA) = true := by decide
/-- V13. -/
theorem test_payload_last :
    lands (exec (.payload 0xCC) (decoding tiny .accumulatingPayload (t2.take 8) 0x1C96))
      (decIs · .accumulatingPayload 9 0xFDC3 8 0xCC) = true := by decide
/-- V14. -/
theorem test_ck1_after_payload :
    lands (exec (.ck1 0xC3) (decoding tiny .accumulatingPayload (t2.take 9) 0xFDC3))
      (decIs · .gotChecksumByte1 10 0xFDC3 9 0xC3) = true := by decide
/-- V15. -/
theorem test_ck1_of_empty_payload :
    lands (exec (.ck1 0xE3) (decoding tiny .gotMessageId (t1.take 6) 0xB3E3))
      (decIs · .gotChecksumByte1 7 0xB3E3 6 0xE3) = true := by decide
/-- V16. -/
theorem test_ck2_emits :
    lands (exec (.ck2 0xFD) (decoding tiny .gotChecksumByte1 t2 0xFDC3))
      (fun t => t.dec.st == .waitingForStart && t.dec.cnt == 0 && t.dec.ckAcc == 0xFDC3 && t.dec.ckDropCnt == 0 &&
        !t.out.ckDrop && t.out.frame == some { len := 3, seq := 7, sysid := 1, compid := 1, msgid := 0x1E, payload := [0xAA, 0xBB, 0xCC], ck := 0xFDC3, raw := t2 ++ [0xFD] }) = true := by
  decide
/-- V21. -/
theorem test_ck2_drop_wraps_the_counter :
    lands (exec (.ck2 0xFC) { decoding tiny .gotChecksumByte1 t2 0xFDC3 with dec := { decoder .gotChecksumByte1 t2 0xFDC3 with ckDropCnt := 0xFFFFFFFF } })
      (fun t => t.dec.st == .waitingForStart && t.dec.ckDropCnt == 0 && t.out.ckDrop && t.out.frame == none) = true := by decide
/-- V20. -/
theorem test_submit_bypass_emits :
    lands (exec (.submit 0xFC) (decoding tinyBypass .gotChecksumByte1 t2 0xFDC3))
      (fun t => (t.out.frame.map (·.ck)) == some 0xFCC3 && !t.out.ckDrop && t.dec.ckDropCnt == 0) = true := by decide
/-- T6: a marker inside the payload restarts nothing. -/
theorem test_submit_marker_in_payload :
    lands (exec (.submit 0xFE) (decoding tiny .accumulatingPayload (t2.take 7) 0x7767))
      (fun t => t.dec.st == .accumulatingPayload && t.dec.cnt == 8 && Memory.read t.dec.buf 7 == some 0xFE) = true := by decide
/-- R104: the only class of a byte in `GotStart` is `LEN`. -/
theorem test_other_class_is_refused :
    refuses (exec (.seq 0x07) (decoding tiny .gotStart (t2.take 1) 0xFFFF)) (.classNotSelected .seq) = true := by decide

/-! ## The ring -/

/-- T21, the fifth push: slot 0 is overwritten and the count stays at `C`. -/
theorem test_push_saturates :
    lands (exec (.push (smp 7)) (t21 RdCtx.idle))
      (fun t => t.rb.slots == [(0, smp 5), (1, smp 6), (2, smp 7), (3, smp 4)] && t.rb.wcur == 7 && t.rb.count == 4 &&
        t.full) = true := by decide
/-- R42, R253: the cursor wraps mod `2^64`. -/
theorem test_push_wraps_the_cursor :
    lands (exec (.push (smp 9)) { t21 RdCtx.idle with rb := { (t21 RdCtx.idle).rb with wcur := 2 ^ 64 - 1 } })
      (fun t => t.rb.wcur == 0 && t.rb.count == 4 && Memory.read t.rb.slots 3 == some (smp 9)) = true := by decide
/-- T29: nine asked for, four given. -/
theorem test_request_takes_the_lesser :
    lands (exec (.latestReq 0 9) (t21 RdCtx.idle))
      (fun t => t.ctx 0 == reading 6 4 0 [] && t.rb.slots == (t21 RdCtx.idle).rb.slots) = true := by decide
/-- T27. -/
theorem test_request_of_nothing :
    lands (exec (.latestReq 0 0) (t21 RdCtx.idle)) (fun t => !(t.ctx 0).busy && (t.ctx 0).m == 0 && (t.ctx 0).w == 6) = true := by
  decide
/-- T29, the third beat: the walk passes from slot 0 to slot 3. -/
theorem test_beat_walks_down :
    lands (exec (.latestBeat 0) (t21 (reading 6 4 2 [smp 6, smp 5])))
      (fun t => t.out.beat == some { ctx := 0, sample := smp 4, last := false } && (t.ctx 0).i == 3 && (t.ctx 0).busy) = true := by
  decide
/-- T29, the last beat. -/
theorem test_beat_last :
    lands (exec (.latestBeat 0) (t21 (reading 6 4 3 [smp 6, smp 5, smp 4])))
      (fun t => t.out.beat == some { ctx := 0, sample := smp 3, last := true } && !(t.ctx 0).busy &&
        (t.ctx 0).got == [smp 6, smp 5, smp 4, smp 3]) = true := by decide

/-- The configuration of T35: a cursor of four bits, ten slots. -/
def narrow : Config := { Config.reference with wcurW := 4, cap := 10, capPos := by decide, capBound := by decide }

/-- T35: after the wrap, beat 1 of the read with snapshot 1 has `a = 15` and reads slot 5. -/
theorem test_beat_borrows_after_the_wrap : [rptrOf narrow 1 0, rptrOf narrow 1 1, rptrOf narrow 1 6, rptrOf narrow 1 9] = [0, 5, 0, 7] := by
  decide

/-! ## The pseudo-operations -/

/-- R108. -/
theorem test_process_message :
    lands (exec (.processMessage [0xFE, 0x00, 0x55] 2) (State.resetOf tiny))
      (fun t => t.queue == [.submit 0xFE, .submit 0x00] && t.dec == (State.resetOf tiny).dec) = true := by decide
/-- R108: the byte given is submitted first, and one more after it, whichever it is. -/
theorem test_process_message_past_its_bytes :
    lands (exec (.processMessage [0xFE] 2) (State.resetOf tiny))
      (fun t => t.queue.head? == some (.submit 0xFE) && t.queue.length == 2 && t.fresh == 1) = true := by rfl
/-- R108, R155. -/
theorem test_latest :
    lands (exec (.latest 0 2) (t21 RdCtx.idle))
      (fun t => t.queue == [.latestBeat 0, .latestBeat 0] && t.ctx 0 == reading 6 2 0 []) = true := by decide
/-- R195: the count is bounded by `2^32 - 1`. -/
theorem test_batch_bounds_the_count :
    lands (exec (.getLatestBatch 0 (2 ^ 32)) (t21 RdCtx.idle)) (fun t => (t.ctx 0).m == 4 && t.queue.length == 4) = true := by
  decide
/-- R195: a non-positive count issues no request. -/
theorem test_batch_fails_fast :
    lands (exec (.getLatestBatch 0 0) (t21 RdCtx.idle)) (fun t => t.out.hostFail && t.rb == (t21 RdCtx.idle).rb) = true := by
  decide
/-- R45. -/
theorem test_status :
    lands (exec .isEmptyIsFull (t21 RdCtx.idle)) (fun t => t.out.flags == some (false, true)) = true := by decide

/-! ## Steps -/

/-- The table word of `PUSH`, placed after reset, is what the next step runs. -/
theorem test_step_runs_the_table_word :
    lands (step (State.reset.withFetchWord 8 0b0010)) (fun t => t.rb.count == 1 && t.ports == []) = true := by decide
/-- R159: with nothing presented and nothing pending, a busy context beats. -/
theorem test_step_beats :
    lands (step (t21 (reading 6 4 3 [smp 6, smp 5, smp 4]))) (fun t => t.out.beat.isSome && !(t.ctx 0).busy) = true := by decide
/-- R71: of two requests of one reader the earlier is accepted, and the later waits. -/
theorem test_step_keeps_the_readers_order :
    lands (step { t21 RdCtx.idle with queue := [.latestReq 0 2], ports := [{ ctl := 0b0001, ctx := some 0, rdN := 3 }] })
      (fun t => (t.ctx 0).m == 2 && t.queue == [.latestReq 0 3] && t.ports == []) = true := by decide
/-- R222: the serial order of a clocked cycle. -/
theorem test_cycle_order :
    Cycle.ops { submit := some 1, beats := [0], reqs := [(1, 2)], push := some 3 } =
      [.submit 1, .latestBeat 0, .latestReq 1 2, .push 3] := by decide

/-! ## The collaborators -/

/-- S5: `snapshot` (R188). -/
theorem test_aggregator_snapshot :
    Aggregator.snapshot { total := 40 } 2 = (40, 20) ∧ Aggregator.snapshot { total := 40 } 0 = (40, 0) ∧
    Aggregator.snapshot { total := 40 } (-1) = (40, 0) := by decide +kernel
/-- S6: nothing is pushed after `stop` (R191). -/
theorem test_producer_stopped : (Producer.stop (Producer.start {})).interval 1 = [] := by decide
/-- P4: the sink on the heartbeat of T1 (R181). -/
theorem test_sink_heartbeat :
    (FrameSink.dispatch tiny { observer := true } { len := 0, seq := 1, sysid := 2, compid := 3, msgid := 0, payload := [], ck := 0xB3E3, raw := [] }).notified =
      [{ connected := true, systemId := some 2, componentId := some 3 }] := by decide

/-! ## Witnesses: for each obligation with hypotheses, what meets them -/

/-- T2 before its last byte, with a busy context and a request that waits for it. -/
def busyState : State :=
  { t21 (reading 6 4 1 [smp 6]) with
    dec := decoder .gotChecksumByte1 t2 0xFDC3
    queue := [.latestReq 0 2] }

/-- The decoder of V16, V17 and V20 meets the invariant. -/
theorem t2_decInv : DecInv tiny (decoder .gotChecksumByte1 t2 0xFDC3) where
  canonical := by decide
  bound := by decide
  stored := by decide
  marker := by decide
  label := by decide
  sum := fun _ => ⟨[0x03, 0x07, 0x01, 0x01, 0x1E, 0xAA, 0xBB, 0xCC], rfl, by decide⟩
  drops := by decide

theorem reading_ctxInv : CtxInv tiny 4 (reading 6 4 1 [smp 6]) where
  cursor := by decide
  progress := by decide
  length := by decide
  live := fun _ => by decide
  reach := fun _ h => absurd h (by decide)

theorem idle_ctxInv : CtxInv tiny 4 RdCtx.idle where
  cursor := by decide
  progress := by decide
  length := by decide
  live := fun h => absurd h (by decide)
  reach := fun h => absurd h (by decide)

/-- The four samples of T21 fit in `SW` bits. -/
theorem t21_width (c : RdCtx) : ∀ j x, Memory.read (t21 c).rb.slots j = some x → x < 2 ^ tiny.sw := by
  intro j x h
  have hx : x = 5 ∨ x = 6 ∨ x = 3 ∨ x = 4 := by
    simp only [t21, Memory.read, smp] at h
    repeat' split at h
    all_goals simp_all
  rcases hx with rfl | rfl | rfl | rfl <;> decide

theorem busyState_inv : busyState.Inv where
  dec := t2_decInv
  rb :=
    { canonical := by decide
      cursor := by decide
      width := t21_width _
      bound := by decide
      young := by decide
      filled := by decide
      contexts := by decide
      readers := fun c hc => by
        rcases List.mem_cons.mp hc with rfl | hc
        · exact reading_ctxInv
        · rw [List.mem_singleton.mp hc]; exact idle_ctxInv }
  queue := by decide
  ports := by decide

theorem witness_StrobesAreServedInSerialOrder :
    ({ ctl := 0b0111 } : PortWord).ctl ≠ 0 ∧ ({ ctl := 0b1110 } : PortWord).ctl ≠ 0 := by decide

theorem witness_DecodeEncodeAgree : (Instr.push 7).hasWord = true ∧ (Instr.ck2 0xFD).hasWord = true := by decide

theorem witness_ResetWinsOverEveryOtherRequest :
    ∃ (s : State) (w : PortWord) (ws : List PortWord), s.ports = w :: ws ∧ w.ctl.getLsbD 3 = true :=
  ⟨{ State.resetOf tiny with ports := [{ ctl := 0b1110 }] }, _, _, rfl, by decide⟩

theorem witness_StartMarkerOpensAFrame :
    (State.resetOf tiny).dec.st = .waitingForStart ∧ (0xFE : Byte) = (State.resetOf tiny).cfg.startMarker := by decide

theorem witness_NoiseByteChangesNoState :
    (State.resetOf tiny).dec.st = .waitingForStart ∧ (0xFD : Byte) ≠ (State.resetOf tiny).cfg.startMarker := by decide

theorem witness_HeaderBytesAreStoredInOrder :
    (decoding tiny .gotStart (t2.take 1) 0).dec.st = .gotStart ∧
    (decoding tiny .gotLength (t2.take 2) 0).dec.st = .gotLength ∧
    (decoding tiny .gotSequence (t2.take 3) 0).dec.st = .gotSequence ∧
    (decoding tiny .gotSourceSystem (t2.take 4) 0).dec.st = .gotSourceSystem ∧
    (decoding tiny .gotSourceComponent (t2.take 5) 0).dec.st = .gotSourceComponent := by decide

/-- The first payload byte, and the last of `LEN = 3` and of `LEN = 255`. -/
theorem witness_PayloadByteIsStoredAndSummed :
    (Memory.read (decoder .gotMessageId (t2.take 6) 0).buf 1 = some 3 ∧ (3 : Byte) ≠ 0 ∧
      (decoder .gotMessageId (t2.take 6) 0).cnt.toNat < 263) ∧
    (Memory.read (decoder .accumulatingPayload (t2.take 8) 0).buf 1 = some 3 ∧
      (decoder .accumulatingPayload (t2.take 8) 0).cnt.toNat < 6 + (3 : Byte).toNat) ∧
    (Memory.read (longFrame 260).buf 1 = some 255 ∧
      (longFrame 260).cnt.toNat < 6 + (255 : Byte).toNat) := by decide

/-- `LEN = 0`, `LEN = 3` and `LEN = 255`. -/
theorem witness_FirstTrailerByteIsStoredNotSummed :
    (Memory.read (decoder .gotMessageId (t1.take 6) 0).buf 1 = some 0 ∧
      (decoder .gotMessageId (t1.take 6) 0).cnt.toNat < 263) ∧
    (Memory.read (decoder .accumulatingPayload (t2.take 9) 0).buf 1 = some 3 ∧
      (decoder .accumulatingPayload (t2.take 9) 0).cnt.toNat = 6 + (3 : Byte).toNat) ∧
    (Memory.read (longFrame 261).buf 1 = some 255 ∧
      (longFrame 261).cnt.toNat = 6 + (255 : Byte).toNat ∧
      (longFrame 261).cnt.toNat < 263) := by decide

/-- A covered byte, and one before `CK_FIRST`. -/
theorem witness_ChecksumCoverageStartsAtCkFirst :
    (∃ t, exec (ofClass .len 3) (decoding tiny .gotStart (t2.take 1) 0) = .next t) ∧
    storeIndex .len (decoder .gotStart (t2.take 1) 0) = some 1 ∧ tiny.ckFirst ≤ 1 ∧
    (∃ t, exec (ofClass .start 0xFE) (State.resetOf tiny) = .next t) ∧ 0 < tiny.ckFirst :=
  ⟨⟨_, rfl⟩, by decide, by decide, ⟨_, rfl⟩, by decide⟩

/-- V16: the checksum holds, low byte first. -/
theorem witness_AcceptedFrameIsEmitted :
    DecInv tiny (decoding tiny .gotChecksumByte1 t2 0xFDC3).dec ∧
    (decoding tiny .gotChecksumByte1 t2 0xFDC3).dec.st = .gotChecksumByte1 ∧
    Memory.read (decoding tiny .gotChecksumByte1 t2 0xFDC3).dec.buf 9 = some 0xC3 ∧
    (decoding tiny .gotChecksumByte1 t2 0xFDC3).dec.cnt.toNat - 1 = 9 ∧
    rxCk tiny 0xC3 0xFD = (decoding tiny .gotChecksumByte1 t2 0xFDC3).dec.ckAcc ∧ tiny.ckOrder = .lowFirst :=
  ⟨t2_decInv, by decide⟩

/-- V20 and the other byte order: `BYPASS`, and `CK_ORDER = HIGH_FIRST` with the same two bytes exchanged. -/
theorem witness_AcceptedFrameIsEmitted_modes :
    tinyBypass.ckMode = .bypass ∧ tinyHigh.ckOrder = .highFirst ∧ rxCk tinyHigh 0xFD 0xC3 = 0xFDC3 := by decide

/-- V17. -/
theorem witness_FailedFrameIsDroppedAndCounted :
    DecInv tiny (decoding tiny .gotChecksumByte1 t2 0xFDC3).dec ∧
    (decoding tiny .gotChecksumByte1 t2 0xFDC3).dec.st = .gotChecksumByte1 ∧
    Memory.read (decoding tiny .gotChecksumByte1 t2 0xFDC3).dec.buf 9 = some 0xC3 ∧
    tiny.ckMode = .verify ∧ rxCk tiny 0xC3 0xFC ≠ (decoding tiny .gotChecksumByte1 t2 0xFDC3).dec.ckAcc :=
  ⟨t2_decInv, by decide⟩

theorem witness_SubmitPerformsExactlyItsClass :
    classify tiny (decoding tiny .gotStart (t2.take 1) 0).dec 3 = .ok .len ∧ ByteClass.seq ≠ ByteClass.len :=
  ⟨rfl, by decide⟩

theorem witness_ClassIsAFunctionOfTheCount : ∃ (cfg : Config) (d : Dec), DecInv cfg d ∧ d.cnt.toNat = 7 + lenNat d :=
  ⟨tiny, _, t2_decInv, by decide⟩

theorem witness_SubmitKeepsTheDecoderInvariant : ∃ s : State, DecInv s.cfg s.dec ∧ s.dec.st = .gotChecksumByte1 :=
  ⟨decoding tiny .gotChecksumByte1 t2 0xFDC3, t2_decInv, by decide⟩

/-- A storing class, `NOISE` and `CK2`. -/
theorem witness_DecoderOperationsChangeOnlyTheirOwn :
    (∃ t, exec (ofClass .len 3) (decoding tiny .gotStart (t2.take 1) 0) = .next t) ∧
    (∃ t, exec (.submit 0xFD) (State.resetOf tiny) = .next t) ∧
    (∃ t, exec (.submit 0xFD) (decoding tiny .gotChecksumByte1 t2 0xFDC3) = .next t) :=
  ⟨⟨_, rfl⟩, ⟨_, rfl⟩, ⟨_, rfl⟩⟩

theorem witness_DecoderStrobesOnlyAtTheLastByte :
    (∃ t, exec (.submit 0xFD) (decoding tiny .gotChecksumByte1 t2 0xFDC3) = .next t) ∧
    (∃ t, exec (.submit 0xFE) (State.resetOf tiny) = .next t ∧ (State.resetOf tiny).dec.st ≠ .gotChecksumByte1) :=
  ⟨⟨_, rfl⟩, ⟨_, rfl, by decide⟩⟩

/-- A step that drops a frame, and one under `BYPASS`. -/
theorem witness_DropCounterCountsDropsOnly :
    (∃ t, exec (.submit 0xFC) (decoding tiny .gotChecksumByte1 t2 0xFDC3) = .next t ∧ t.out.ckDrop = true) ∧
    (∃ t, exec (.submit 0xFC) (decoding tinyBypass .gotChecksumByte1 t2 0xFDC3) = .next t ∧ tinyBypass.ckMode = .bypass) :=
  ⟨⟨_, rfl, by decide⟩, ⟨_, rfl, by decide⟩⟩

theorem witness_NoiseIsSkippedAndNotCounted :
    (State.resetOf tiny).dec.st = .waitingForStart ∧
    (∀ b ∈ ([0x00, 0xFD, 0xFF] : List Byte), b ≠ (State.resetOf tiny).cfg.startMarker) := by decide

/-- No payload and 255 bytes of it; T1's trailer, and T4's. -/
theorem witness_AFrameIsEmittedOrDroppedByItsTrailer :
    (State.resetOf tiny).dec.st = .waitingForStart ∧ ([] : List Byte).length ≤ 255 ∧
    (List.replicate 255 (0 : Byte)).length ≤ 255 ∧
    rxCk tiny 0xE3 0xB3 = ckFold tiny (coveredBytes tiny 1 2 3 0 []) ∧
    (tiny.ckMode = .verify ∧ rxCk tiny 0xE3 0xB4 ≠ ckFold tiny (coveredBytes tiny 1 2 3 0 [])) ∧
    tinyBypass.ckMode = .bypass :=
  ⟨by decide, by decide, List.length_replicate.le, by decide⟩

theorem witness_ACorrectFrameIsNeverDropped :
    (State.resetOf tiny).dec.st = .waitingForStart ∧ (List.replicate 255 (0 : Byte)).length ≤ 255 :=
  ⟨by decide, List.length_replicate.le⟩

theorem witness_ChunkingDoesNotMatter : ∃ s : State, DecInv s.cfg s.dec ∧ s.ports = [] :=
  ⟨decoding tiny .gotChecksumByte1 t2 0xFDC3, t2_decInv, rfl⟩

/-- The ring of T21 with the cursor at `w`. -/
def t21At (w : Nat) : State := { t21 RdCtx.idle with rb := { (t21 RdCtx.idle).rb with wcur := w } }

/-- The last push before the wrap, the push that wraps, and one after it. -/
theorem witness_CountIsTheLesserOfCursorAndCapacity :
    ((t21At (2 ^ 64 - 2)).rb.count = min (t21At (2 ^ 64 - 2)).rb.wcur 4 ∧
      (t21At (2 ^ 64 - 2)).rb.wcur + 1 < 2 ^ 64) ∧
    ((t21At (2 ^ 64 - 1)).rb.count = min (t21At (2 ^ 64 - 1)).rb.wcur 4 ∧
      (t21At (2 ^ 64 - 1)).rb.wcur + 1 = 2 ^ 64) ∧
    (t21At 0).rb.count = (t21At 0).cfg.cap ∧ (∃ t, exec (.push 1) (t21At 0) = .next t) :=
  ⟨by decide, by decide, by decide, ⟨_, rfl⟩⟩

theorem witness_CountSaturatesAndIsNeverLowered :
    (∃ t, exec (.push 1) (t21 RdCtx.idle) = .next t) ∧ (t21 RdCtx.idle).rb.count ≤ (t21 RdCtx.idle).cfg.cap ∧
    (∃ t, exec (.latestBeat 0) (t21 (reading 6 4 1 [smp 6])) = .next t) ∧
    (∀ x, Instr.latestBeat 0 ≠ .push x) :=
  ⟨⟨_, rfl⟩, by decide, ⟨_, rfl⟩, fun _ h => nomatch h⟩

theorem witness_RequestTakesTheSnapshot :
    (t21 RdCtx.idle).hasCtx 1 = true ∧ ((t21 RdCtx.idle).ctx 1).busy = false := by decide

theorem witness_RequestOnABusyContextWaits : busyState.hasCtx 0 = true ∧ (busyState.ctx 0).busy = true := by decide

/-- The first and the last beat of a read of the whole ring. -/
theorem witness_BeatReturnsTheSlotUnderTheReadPointer :
    ((t21 (reading 6 4 0 [])).hasCtx 0 = true ∧ ((t21 (reading 6 4 0 [])).ctx 0).busy = true ∧ 0 < 4 ∧
      Memory.read (t21 (reading 6 4 0 [])).rb.slots ((((6 : Int) - 1 - 0) % 2 ^ 64).toNat % 4) = some (smp 6)) ∧
    (((t21 (reading 6 4 3 [])).ctx 0).i + 1 = ((t21 (reading 6 4 3 [])).ctx 0).m ∧
      ((t21 (reading 6 4 3 [])).ctx 0).m ≤ (t21 (reading 6 4 3 [])).cfg.cap ∧
      Memory.read (t21 (reading 6 4 3 [])).rb.slots ((((6 : Int) - 1 - 3) % 2 ^ 64).toNat % 4) = some (smp 3)) := by
  decide

/-- The last context there is, and the first there is not. -/
theorem witness_BeatsBelongToBusyContexts :
    ((t21 RdCtx.idle).hasCtx 1 = true ∧ ((t21 RdCtx.idle).ctx 1).busy = false) ∧ (t21 RdCtx.idle).hasCtx 2 = false := by
  decide

theorem witness_ReadsWriteOnlyTheirOwnContext :
    (∃ t, exec (.latestReq 1 2) busyState = .next t) ∧ (∃ t, exec (.latestBeat 0) busyState = .next t) :=
  ⟨⟨_, rfl⟩, ⟨_, rfl⟩⟩

/-- T21: six pushes into four slots; push 2 is the oldest kept, push 5 the newest. -/
theorem witness_AfterPushesTheRingHoldsTheLatest :
    ([smp 1, smp 2, smp 3, smp 4, smp 5, smp 6]).length < 2 ^ 64 ∧ (6 - tiny.cap ≤ 2 ∧ 2 < 6) ∧ (6 - tiny.cap ≤ 5 ∧ 5 < 6) := by
  decide

/-- The history of T21: push `k` carries sequence number `k + 1`. -/
theorem t21_history (c : RdCtx) : HoldsHistory tiny (t21 c).rb (fun k => smp (k + 1)) 6 where
  below := by decide
  cursor := rfl
  count := by rw [show (t21 c).rb.count = 4 from rfl]; decide
  slots := by
    show ∀ k, k < 6 → 6 - 4 ≤ k → Memory.read [(0, smp 5), (1, smp 6), (2, smp 3), (3, smp 4)] (k % 4) = some (smp (k + 1))
    decide

/-- A push onto the history of T21, a reset and a beat. -/
theorem witness_PushExtendsTheHistory :
    HoldsHistory tiny (t21 RdCtx.idle).rb (fun k => smp (k + 1)) 6 ∧ 6 + 1 < 2 ^ tiny.wcurW ∧
    (∃ t, exec (.push 7) (t21 RdCtx.idle) = .next t) ∧ (∃ t, exec .reset (t21 RdCtx.idle) = .next t) ∧
    (∃ t, exec (.latestReq 0 2) (t21 RdCtx.idle) = .next t) :=
  ⟨t21_history _, by decide, ⟨_, rfl⟩, ⟨_, rfl⟩, ⟨_, rfl⟩⟩

theorem witness_EveryStepKeepsTheHistory :
    HoldsHistory tiny (t21 RdCtx.idle).rb (fun k => smp (k + 1)) 6 ∧ 6 + 1 < 2 ^ tiny.wcurW ∧
    (∃ t, step { t21 RdCtx.idle with queue := [.push 7] } = .next t) ∧
    (fetch { t21 RdCtx.idle with queue := [.push 7] }).1 = .push 7 :=
  ⟨t21_history _, by decide, ⟨_, rfl⟩, by decide⟩

/-- Two pushes after a snapshot at 4: beat 0 is not overtaken, beat 2 is by exactly as many as it takes, beat 3 by more. -/
theorem witness_BeatReturnsTheClosedForm :
    ((t21 (reading 4 4 0 [])).hasCtx 0 = true ∧ ((t21 (reading 4 4 0 [])).ctx 0).busy = true ∧
      ((t21 (reading 4 4 0 [])).ctx 0).m ≤ ((t21 (reading 4 4 0 [])).ctx 0).w ∧ 2 + 0 < tiny.cap) ∧
    (((t21 (reading 4 4 2 [])).ctx 0).i < ((t21 (reading 4 4 2 [])).ctx 0).m ∧ tiny.cap - 2 = 2) ∧
    (((t21 (reading 4 4 3 [])).ctx 0).i < ((t21 (reading 4 4 3 [])).ctx 0).m ∧ tiny.cap - 3 < 2) ∧
    HoldsHistory tiny (t21 (reading 4 4 0 [])).rb (fun k => smp (k + 1)) (4 + 2) :=
  ⟨by decide, by decide, by decide, t21_history _⟩

theorem witness_QuiescentReadIsMostRecentFirst :
    (t21 RdCtx.idle).hasCtx 0 = true ∧ ((t21 RdCtx.idle).ctx 0).busy = false ∧
    HoldsHistory tiny (t21 RdCtx.idle).rb (fun k => smp (k + 1)) 6 :=
  ⟨by decide, by decide, t21_history _⟩

theorem witness_ABusyReadEndsAfterItsBeats :
    busyState.Inv ∧ busyState.hasCtx 0 = true ∧ (busyState.ctx 0).busy = true :=
  ⟨busyState_inv, by decide⟩

theorem witness_AWaitingRequestIsAccepted :
    busyState.Inv ∧ busyState.ports = [] ∧ busyState.queue = .latestReq 0 2 :: [] ∧ (busyState.ctx 0).busy = true :=
  ⟨busyState_inv, rfl, rfl, by decide⟩

/-- T34: beat 3 reads slot 0 in the cycle of a push. -/
theorem witness_SameCycleReadsComeBeforeThePush :
    (busyState.hasCtx 0 = true ∧ (busyState.ctx 0).busy = true ∧
      Memory.read busyState.rb.slots (busyState.rptr 0) = some (smp 5)) ∧
    (busyState.hasCtx 1 = true ∧ (busyState.ctx 1).busy = false) := by decide

theorem witness_CycleWordsDecodeToTheSerialOrder : ({ rst := true, submit := some 1 } : Cycle).rst = true := by decide

/-- A length of all bytes, and one more. -/
theorem witness_ProcessMessageIsItsSubmits :
    2 ≤ ([0xFE, 0x00] : List Byte).length ∧ ([0xFE, 0x00] : List Byte).length < 3 := by decide

theorem witness_LatestIsARequestAndItsBeats :
    (busyState.hasCtx 1 = true ∧ (busyState.ctx 1).busy = false) ∧
    (busyState.hasCtx 0 = true ∧ (busyState.ctx 0).busy = true) := by decide

theorem witness_GetLatestBatchIsLatestProjected :
    (0 : Int) ≤ 0 ∧ (0 : Int) < 1 ∧ (busyState.hasCtx 1 = true ∧ (busyState.ctx 1).busy = false) ∧
    (busyState.hasCtx 0 = true ∧ (busyState.ctx 0).busy = true) := by decide

theorem witness_StepRunsThePresentedOperation :
    ∃ (s : State) (w : PortWord) (ws : List PortWord), s.ports = w :: ws ∧ decode w ≠ .idle ∧
      (∀ a, agentOf (decode w) = some a → ∀ j ∈ s.queue, agentOf j ≠ some a) :=
  ⟨{ busyState with ports := [{ ctl := 0b0100, inByte := 0xFE }] }, _, _, rfl, by decide, fun a h j hj => by
    rw [List.mem_singleton.mp hj]
    rw [← h]
    decide⟩

/-- An operation that can run, one that waits, a beat with nothing pending, and nothing at all. -/
theorem witness_QuietStepRunsWhatIsPending :
    (∃ s : State, s.ports = [] ∧ s.queue = .latestReq 1 2 :: [] ∧ needsFree (.latestReq 1 2) = some 1 ∧
      (s.ctx 1).busy = false) ∧
    (busyState.ports = [] ∧ busyState.queue = .latestReq 0 2 :: [] ∧ needsFree (.latestReq 0 2) = some 0 ∧
      (busyState.ctx 0).busy = true) ∧
    ((t21 (reading 6 4 1 [smp 6])).ports = [] ∧ (t21 (reading 6 4 1 [smp 6])).queue = [] ∧
      firstBusy (t21 (reading 6 4 1 [smp 6])).rb.rd = some 0) ∧
    decode { ctl := 0 } = .idle ∧
    ((State.resetOf tiny).ports = [] ∧ (State.resetOf tiny).queue = [] ∧ ∀ r, ((State.resetOf tiny).ctx r).busy = false) :=
  ⟨⟨{ t21 RdCtx.idle with queue := [.latestReq 1 2] }, rfl, rfl, rfl, by decide⟩, by decide, by decide,
    by decide, rfl, rfl, fun r => by match r with | 0 => rfl | 1 => rfl | r + 2 => rfl⟩

/-- A later request of a reader whose earlier one waits, and one whose context has just become free. -/
theorem witness_AnEarlierOperationGoesFirst :
    agentOf (decode { ctl := 0b0001, ctx := some 0, rdN := 3 }) = some (.reader 0) ∧
    agentOf (.latestReq 0 2) = some (.reader 0) ∧
    busyState.queue = [] ++ .latestReq 0 2 :: [] ∧ needsFree (.latestReq 0 2) = some 0 ∧ (busyState.ctx 0).busy = true ∧
    ((t21 RdCtx.idle).ctx 0).busy = false := by decide

/-- A step that performs the earlier of two requests of one reader. -/
theorem witness_EachAgentsOperationsKeepTheirOrder :
    ∃ s t : State, step s = .next t ∧ s.issued (.reader 0) = [.latestReq 0 2, .latestReq 0 3] ∧
      t.issued (.reader 0) = [.latestReq 0 3] :=
  ⟨{ t21 RdCtx.idle with
      queue := [.push 1, .latestReq 0 2]
      ports := [{ ctl := 0b0001, ctx := some 0, rdN := 3 }] }, _, rfl, by decide, by decide⟩

/-- The same decoder beside another ring, and the same ring beside another decoder. -/
theorem witness_TheUnitsShareNoState :
    (busyState.cfg = (decoding tiny .gotChecksumByte1 t2 0xFDC3).cfg ∧
      busyState.dec = (decoding tiny .gotChecksumByte1 t2 0xFDC3).dec ∧ (∃ t, exec (.submit 0xFD) busyState = .next t)) ∧
    (busyState.rb = (t21 (reading 6 4 1 [smp 6])).rb ∧ (∃ t, exec (.latestBeat 0) busyState = .next t)) :=
  ⟨⟨rfl, rfl, ⟨_, rfl⟩⟩, rfl, ⟨_, rfl⟩⟩

theorem witness_TheConfigurationNeverChanges : ∃ t, step busyState = .next t := ⟨_, rfl⟩

theorem witness_EveryStepKeepsTheInvariant : busyState.Inv ∧ ∃ t, step busyState = .next t := ⟨busyState_inv, _, rfl⟩

theorem witness_NoStepStops : busyState.Inv := busyState_inv

theorem witness_HeartbeatReachesTheVehicleState :
    (State.resetOf tiny).dec.st = .waitingForStart ∧ (List.replicate 255 (0 : Byte)).length ≤ 255 :=
  ⟨by decide, List.length_replicate.le⟩

end Sys2Proof.Tests
end

namespace Sys2Proof.Machine

/-! ## The state after reset (spec/10_state.md R53) -/

@[simp] theorem State.resetOf_cfg (cfg : Config) : (State.resetOf cfg).cfg = cfg := rfl
@[simp] theorem State.resetOf_dec (cfg : Config) : (State.resetOf cfg).dec = Dec.reset := rfl
@[simp] theorem State.resetOf_rb (cfg : Config) : (State.resetOf cfg).rb = Rb.reset cfg.nReaders := rfl

@[simp] theorem Dec.reset_st : Dec.reset.st = .waitingForStart := rfl
@[simp] theorem Dec.reset_cnt : Dec.reset.cnt = 0 := rfl
@[simp] theorem Dec.reset_buf : Dec.reset.buf = [] := rfl
@[simp] theorem Dec.reset_ckDropCnt : Dec.reset.ckDropCnt = 0 := rfl

@[simp] theorem Rb.reset_slots (n : Nat) : (Rb.reset n).slots = [] := rfl
@[simp] theorem Rb.reset_wcur (n : Nat) : (Rb.reset n).wcur = 0 := rfl
@[simp] theorem Rb.reset_count (n : Nat) : (Rb.reset n).count = 0 := rfl
@[simp] theorem Rb.reset_rd (n : Nat) : (Rb.reset n).rd = List.replicate n RdCtx.idle := rfl

@[simp] theorem RdCtx.idle_busy : RdCtx.idle.busy = false := rfl

/-- Every context reads as the idle one after reset, also one the instance does not have. -/
@[simp] theorem State.resetOf_ctx (cfg : Config) (r : Nat) : (State.resetOf cfg).ctx r = RdCtx.idle := by
  by_cases hr : r < cfg.nReaders <;> simp [State.ctx, List.getD, hr]

theorem State.resetOf_decBusy (cfg : Config) : (State.resetOf cfg).decBusy = false := rfl

theorem State.resetOf_empty (cfg : Config) : (State.resetOf cfg).empty = true := rfl

/-- An empty ring is not full, since a legal configuration has `C >= 1` (R53, R244). -/
theorem State.resetOf_full (cfg : Config) : (State.resetOf cfg).full = false := by
  have hcap : 0 ≠ cfg.cap := (Nat.pos_iff_ne_zero.mp cfg.capPos).symm
  simpa [State.full] using hcap

/-- Settles O6, value by value. -/
theorem afterResetTheStateHoldsTheseValues : Obligations.AfterResetTheStateHoldsTheseValues := by
  intro cfg
  refine ⟨by simp, by simp, by simp, by simp, by simp, by simp, ?busy, State.resetOf_decBusy cfg,
    State.resetOf_empty cfg, State.resetOf_full cfg, ?buf, ?slots⟩
  case busy => intro r; simp
  case buf => intro k; simp
  case slots => intro j; simp

/-! ## `PUSH` (spec/41_ringbuffer.md R150) -/

/-- The state after `PUSH x`, which is never refused (R150). -/
def State.pushed (s : State) (x : Sample) : State :=
  { s.still with
    rb := { s.rb with
      slots := Memory.write s.rb.slots s.wptr x
      wcur := (s.rb.wcur + 1) % 2 ^ s.cfg.wcurW
      count := min (s.rb.count + 1) s.cfg.cap } }

theorem exec_push (x : Sample) (s : State) : exec (.push x) s = .next (s.pushed x) := rfl

@[simp] theorem State.pushed_cfg (s : State) (x : Sample) : (s.pushed x).cfg = s.cfg := rfl
@[simp] theorem State.pushed_wcur (s : State) (x : Sample) :
    (s.pushed x).rb.wcur = (s.rb.wcur + 1) % 2 ^ s.cfg.wcurW := rfl
@[simp] theorem State.pushed_count (s : State) (x : Sample) :
    (s.pushed x).rb.count = min (s.rb.count + 1) s.cfg.cap := rfl

theorem exec_push_next {x : Sample} {s t : State} (h : exec (.push x) s = .next t) : t = s.pushed x := by
  rw [exec_push] at h
  cases h
  rfl

/-! ## The count (spec/10_state.md R44) -/

theorem State.pushed_wcur_of_noWrap {s : State} (x : Sample) (h : s.rb.wcur + 1 < 2 ^ s.cfg.wcurW) :
    (s.pushed x).rb.wcur = s.rb.wcur + 1 := by
  rw [State.pushed_wcur, Nat.mod_eq_of_lt h]

theorem State.pushed_wcur_of_wrap {s : State} (x : Sample) (h : s.rb.wcur + 1 = 2 ^ s.cfg.wcurW) :
    (s.pushed x).rb.wcur = 0 := by
  rw [State.pushed_wcur, h, Nat.mod_self]

/-- On a full ring the count saturates: nothing after the wrap lowers it. -/
theorem State.pushed_count_of_full {s : State} (x : Sample) (h : s.rb.count = s.cfg.cap) :
    (s.pushed x).rb.count = s.cfg.cap := by
  rw [State.pushed_count, h]
  omega

theorem State.pushed_count_of_noWrap {s : State} (x : Sample) (hc : s.rb.count = min s.rb.wcur s.cfg.cap)
    (hw : s.rb.wcur + 1 < 2 ^ s.cfg.wcurW) : (s.pushed x).rb.count = min (s.pushed x).rb.wcur s.cfg.cap := by
  rw [State.pushed_wcur_of_noWrap x hw, State.pushed_count, hc]
  omega

/-- The last cursor before the wrap has passed the capacity, as `C <= 2^WCUR_W - 1`, so the ring is full there. -/
theorem State.full_of_lastCursor {s : State} (hc : s.rb.count = min s.rb.wcur s.cfg.cap)
    (hw : s.rb.wcur + 1 = 2 ^ s.cfg.wcurW) : s.rb.count = s.cfg.cap := by
  have hcap : s.cfg.cap < 2 ^ s.cfg.wcurW := s.cfg.cap_lt_cursor
  omega

/-- Settles O29: before the wrap cursor and count advance together up to `C`; at the wrap the ring is full already, and a
full ring stays full. -/
theorem countIsTheLesserOfCursorAndCapacity : Obligations.CountIsTheLesserOfCursorAndCapacity := by
  refine ⟨fun cfg => by simp, fun s t x h => ?_⟩
  obtain rfl := exec_push_next h
  rw [State.pushed_cfg]
  refine ⟨?beforeTheWrap, ?atTheWrap, ?full⟩
  case beforeTheWrap => exact State.pushed_count_of_noWrap x
  case atTheWrap =>
    intro hc hw
    exact ⟨State.pushed_wcur_of_wrap x hw, State.pushed_count_of_full x (State.full_of_lastCursor hc hw)⟩
  case full => exact State.pushed_count_of_full x

end Sys2Proof.Machine

namespace Sys2Proof.Machine

/-! ## `LATEST.BEAT` (spec/41_ringbuffer.md R158) -/

/-- The state after a beat of context `r` that returned `x` (R158). -/
def State.beaten (s : State) (r : Nat) (x : Sample) : State :=
  { s.setCtx r ((s.ctx r).beaten s.cfg.cap x) with
    out := { Out.quiet with beat := some { ctx := r, sample := x, last := (s.ctx r).last s.cfg.cap } } }

@[simp] theorem State.beaten_beat (s : State) (r : Nat) (x : Sample) :
    (s.beaten r x).out.beat = some { ctx := r, sample := x, last := (s.ctx r).last s.cfg.cap } := rfl

theorem exec_latestBeat_of_read {r : Nat} {s : State} {x : Sample} (hctx : s.hasCtx r = true)
    (hbusy : (s.ctx r).busy = true) (hx : Memory.read s.rb.slots (s.rptr r) = some x) :
    exec (.latestBeat r) s = .next (s.beaten r x) := by
  have hbeat : doBeat r s = .ok (s.beaten r x) := doBeat_of_read hx
  simp [exec, execLatestBeat, hctx, hbusy, hbeat, settle]

/-- Before the cursor wraps the subtraction of the read pointer does not borrow (R158). -/
theorem rptrOf_of_noBorrow {cfg : Config} {w i : Nat} (hi : i < w) (hw : w < 2 ^ cfg.wcurW) :
    rptrOf cfg w i = (w - 1 - i) % cfg.cap := by
  have hsub : (w : Int) - 1 - i = ((w - 1 - i : Nat) : Int) := by omega
  have hfits : w - 1 - i < 2 ^ cfg.wcurW := by omega
  rw [rptrOf, hsub, ← Int.natCast_mod, Int.toNat_natCast, Nat.mod_eq_of_lt hfits]

/-! ## The push a beat returns (spec/20_memory.md R73) -/

/-- The push whose sample beat `i` of a read with snapshot `w` returns when `p` pushes have followed the snapshot (R73);
`HoldsHistory.read_rptr` says that it is the one under the read pointer. -/
def beatPush (cap w i p : Nat) : Nat := w - 1 - i + cap * ((p + i) / cap)

theorem beatPush_mod_cap (cap w i p : Nat) : beatPush cap w i p % cap = (w - 1 - i) % cap :=
  Nat.add_mul_mod_self_left ..

theorem beatPush_lt {w i : Nat} (cap p : Nat) (hi : i < w) : beatPush cap w i p < w + p := by
  have hle : cap * ((p + i) / cap) ≤ p + i := Nat.mul_div_le (p + i) cap
  unfold beatPush
  omega

/-- The push returned is among the latest `C`: rounding `p + i` down to a multiple of `C` loses less than `C`. -/
theorem le_beatPush {cap : Nat} (w i p : Nat) (hcap : 0 < cap) : w + p - cap ≤ beatPush cap w i p := by
  have hlt : p + i < cap * ((p + i) / cap) + cap := Nat.lt_mul_div_succ (p + i) hcap
  unfold beatPush
  omega

/-- Until the slot is overwritten the beat returns the push the snapshot expected. -/
theorem beatPush_of_notOvertaken {cap p i : Nat} (w : Nat) (h : p + i < cap) : beatPush cap w i p = w - 1 - i := by
  rw [beatPush, Nat.div_eq_of_lt h, Nat.mul_zero, Nat.add_zero]

/-- The expected sample has been overwritten exactly from push `C - i` after the snapshot on. -/
theorem beatPush_ne_expected_iff {cap : Nat} (w i p : Nat) (hcap : 0 < cap) :
    beatPush cap w i p ≠ w - 1 - i ↔ cap - i ≤ p := by
  constructor
  · intro hne
    by_contra hlt
    exact hne (beatPush_of_notOvertaken w (by omega))
  · intro hle
    have hone : cap * 1 ≤ cap * ((p + i) / cap) :=
      Nat.mul_le_mul_left cap ((Nat.one_le_div_iff hcap).mpr (by omega))
    unfold beatPush
    omega

/-- The slot under the read pointer holds the sample of push `beatPush`: that push is among the latest `C` and falls on the
same slot as the push the snapshot expected. -/
theorem HoldsHistory.read_rptr {s : State} {h : Nat → Sample} {r p : Nat}
    (hist : HoldsHistory s.cfg s.rb h ((s.ctx r).w + p)) (hi : (s.ctx r).i < (s.ctx r).w) :
    Memory.read s.rb.slots (s.rptr r) = some (h (beatPush s.cfg.cap (s.ctx r).w (s.ctx r).i p)) := by
  have hslot : s.rptr r = beatPush s.cfg.cap (s.ctx r).w (s.ctx r).i p % s.cfg.cap := by
    rw [beatPush_mod_cap]
    exact rptrOf_of_noBorrow hi (Nat.lt_of_le_of_lt (Nat.le_add_right _ p) hist.below)
  rw [hslot]
  exact hist.slots _ (beatPush_lt _ p hi) (le_beatPush _ _ p s.cfg.capPos)

/-- Settles O39: the beat reads the slot of push `w - 1 - i`, which holds the latest push that fell on it. -/
theorem beatReturnsTheClosedForm : Obligations.BeatReturnsTheClosedForm := by
  intro s h r p hctx hbusy hi _ hw hist
  have hread := hist.read_rptr (Nat.lt_of_lt_of_le hi hw)
  refine ⟨⟨_, _, exec_latestBeat_of_read hctx hbusy hread, State.beaten_beat .., rfl, rfl, ?notOvertaken⟩, ?overtaken⟩
  case notOvertaken => exact fun hp => congrArg h (beatPush_of_notOvertaken _ hp)
  case overtaken => exact beatPush_ne_expected_iff _ _ p s.cfg.capPos

end Sys2Proof.Machine

namespace Sys2Proof.Machine

/-! ## The class of a submitted byte (spec/40_decoder.md R121), row by row -/

section

variable {cfg : Config} {d : Dec}

theorem classify_of_marker {b : Byte} (h : d.st = .waitingForStart) (hb : b = cfg.startMarker) :
    classify cfg d b = .ok .start := by simp [classify, h, hb]

theorem classify_of_noise {b : Byte} (h : d.st = .waitingForStart) (hb : b ≠ cfg.startMarker) :
    classify cfg d b = .ok .noise := by simp [classify, h, hb]

theorem classify_of_gotStart (b : Byte) (h : d.st = .gotStart) :
    classify cfg d b = .ok .len := by simp [classify, h]

theorem classify_of_gotLength (b : Byte) (h : d.st = .gotLength) :
    classify cfg d b = .ok .seq := by simp [classify, h]

theorem classify_of_gotSequence (b : Byte) (h : d.st = .gotSequence) :
    classify cfg d b = .ok .sysid := by simp [classify, h]

theorem classify_of_gotSourceSystem (b : Byte) (h : d.st = .gotSourceSystem) :
    classify cfg d b = .ok .compid := by simp [classify, h]

theorem classify_of_gotSourceComponent (b : Byte) (h : d.st = .gotSourceComponent) :
    classify cfg d b = .ok .msgid := by simp [classify, h]

theorem lenOf_of_read {l : Byte} (h : Memory.read d.buf 1 = some l) :
    lenOf cfg d = .ok l.toNat := by simp [lenOf, bufByte_ok.mpr h]

theorem classify_of_gotMessageId {l : Byte} (b : Byte) (h : d.st = .gotMessageId)
    (hl : Memory.read d.buf 1 = some l) :
    classify cfg d b = .ok (if l.toNat = 0 then .ck1 else .payload) := by simp [classify, h, lenOf_of_read hl]

theorem classify_of_accumulatingPayload {l : Byte} (b : Byte)
    (h : d.st = .accumulatingPayload) (hl : Memory.read d.buf 1 = some l) :
    classify cfg d b = .ok (if d.cnt.toNat = 6 + l.toNat then .ck1 else .payload) := by
  simp [classify, h, lenOf_of_read hl]

/-- Both rows of R121 that select `PAYLOAD`: the payload still lacks a byte. -/
theorem classify_of_payloadLeft {l : Byte} (b : Byte) (hl : Memory.read d.buf 1 = some l)
    (h : d.st = .gotMessageId ∧ l ≠ 0 ∨ d.st = .accumulatingPayload ∧ d.cnt.toNat < 6 + l.toNat) :
    classify cfg d b = .ok .payload := by
  obtain ⟨hst, hne⟩ | ⟨hst, hlt⟩ := h
  · have hpos : l.toNat ≠ 0 := fun h0 => hne (BitVec.eq_of_toNat_eq h0)
    rw [classify_of_gotMessageId b hst hl, if_neg hpos]
  · rw [classify_of_accumulatingPayload b hst hl, if_neg hlt.ne]

/-- Both rows of R121 that select `CK1`: the payload is complete. -/
theorem classify_of_payloadComplete {l : Byte} (b : Byte) (hl : Memory.read d.buf 1 = some l)
    (h : d.st = .gotMessageId ∧ l = 0 ∨ d.st = .accumulatingPayload ∧ d.cnt.toNat = 6 + l.toNat) :
    classify cfg d b = .ok .ck1 := by
  obtain ⟨hst, rfl⟩ | ⟨hst, heq⟩ := h
  · exact classify_of_gotMessageId b hst hl
  · rw [classify_of_accumulatingPayload b hst hl, if_pos heq]

end

/-! ## The step of the selected class -/

/-- The selected class and `SUBMIT` are the same step (R104, R120). -/
theorem exec_of_classify {c : ByteClass} {b : Byte} {s t : State} (hc : classify s.cfg s.dec b = .ok c)
    (ht : doClass c b s = .ok t) : exec (ofClass c b) s = .next t ∧ exec (.submit b) s = .next t := by
  constructor
  · rw [exec_ofClass, inClass_selected _ hc, ht, settle_ok]
  · rw [exec, execSubmit, hc]
    simp only [ht, settle_ok]

/-- Storing at an index the frame buffer has is the template of R122 and R124 to R130. -/
theorem takeByte_takesByte {k : Nat} (cnt : Count9) (acc : Half) (st : FsmState) (b : Byte) (s : State) (hk : k < 263) :
    ∃ t, takeByte k cnt acc st b s = .ok t ∧ TakesByte s t k b cnt acc st := by
  refine ⟨_, takeByte_of_lt cnt acc st b s (by simpa using hk), ?_⟩
  exact { st := rfl, cnt := rfl, ckAcc := rfl, ckDropCnt := rfl, rb := rfl, out := rfl, env := ⟨rfl, rfl, rfl, rfl⟩
          stored := Memory.read_write_same ..
          others := fun _ hj => Memory.read_write_other _ b hj }

/-- A selected class whose rule stores the byte takes it, as its own operation and as `SUBMIT`. -/
theorem exec_takesByte {c : ByteClass} {b : Byte} {s : State} {k : Nat} {cnt : Count9} {acc : Half} {st : FsmState}
    (hc : classify s.cfg s.dec b = .ok c) (hdo : doClass c b s = takeByte k cnt acc st b s) (hk : k < 263) :
    ∃ t, exec (ofClass c b) s = .next t ∧ exec (.submit b) s = .next t ∧ TakesByte s t k b cnt acc st := by
  obtain ⟨t, ht, htakes⟩ := takeByte_takesByte cnt acc st b s hk
  obtain ⟨hown, hsubmit⟩ := exec_of_classify hc (hdo.trans ht)
  exact ⟨t, hown, hsubmit, htakes⟩

theorem ckAt_of_covered {cfg : Config} {k : Nat} (acc : Half) (b : Byte) (h : cfg.ckFirst ≤ k) :
    ckAt cfg k acc b = ckStep cfg acc b := if_pos h

theorem ckAt_of_uncovered {cfg : Config} {k : Nat} (acc : Half) (b : Byte) (h : k < cfg.ckFirst) :
    ckAt cfg k acc b = acc := if_neg (Nat.not_le.mpr h)

/-- The header and payload classes take their byte and fold it in from `CK_FIRST` on (R124 to R129). -/
theorem exec_takesSummedByte {c : ByteClass} {b : Byte} {s : State} {k : Nat} {cnt : Count9} {st : FsmState}
    (hc : classify s.cfg s.dec b = .ok c)
    (hdo : doClass c b s = takeByte k cnt (ckAt s.cfg k s.dec.ckAcc b) st b s) (hk : k < 263) :
    ∃ t acc, exec (ofClass c b) s = .next t ∧ exec (.submit b) s = .next t ∧ TakesByte s t k b cnt acc st ∧
      (s.cfg.ckFirst ≤ k → acc = ckStep s.cfg s.dec.ckAcc b) := by
  obtain ⟨t, hown, hsubmit, htakes⟩ := exec_takesByte hc hdo hk
  exact ⟨t, _, hown, hsubmit, htakes, ckAt_of_covered _ b⟩

/-! ## The classes before the second trailer byte (spec/40_decoder.md R122 to R130) -/

/-- Settles O10: the marker goes to `buf[0]`, which is not covered when `CK_FIRST` is 1 or more. -/
theorem startMarkerOpensAFrame : Obligations.StartMarkerOpensAFrame := by
  intro s b hst hb
  obtain ⟨t, hown, hsubmit, htakes⟩ := exec_takesByte (classify_of_marker hst hb) rfl (by decide)
  exact ⟨t, _, hown, hsubmit, htakes, ckAt_of_uncovered _ b⟩

/-- Settles O11: the byte is noise, whose effect is the still step. -/
theorem noiseByteChangesNoState : Obligations.NoiseByteChangesNoState := by
  intro s b hst hb
  exact exec_of_classify (classify_of_noise hst hb) rfl

/-- Settles O12: each header state selects its own class, whose index is fixed. -/
theorem headerBytesAreStoredInOrder : Obligations.HeaderBytesAreStoredInOrder := by
  intro s b
  refine ⟨fun h => ?len, fun h => ?seq, fun h => ?sysid, fun h => ?compid, fun h => ?msgid⟩
  case len => exact exec_takesSummedByte (classify_of_gotStart b h) rfl (by decide)
  case seq => exact exec_takesSummedByte (classify_of_gotLength b h) rfl (by decide)
  case sysid => exact exec_takesSummedByte (classify_of_gotSequence b h) rfl (by decide)
  case compid => exact exec_takesSummedByte (classify_of_gotSourceSystem b h) rfl (by decide)
  case msgid => exact exec_takesSummedByte (classify_of_gotSourceComponent b h) rfl (by decide)

/-- Settles O13: while the payload lacks a byte, the class is `PAYLOAD` and its index is `cnt`. -/
theorem payloadByteIsStoredAndSummed : Obligations.PayloadByteIsStoredAndSummed := by
  intro s b l hl hcnt h
  exact exec_takesSummedByte (classify_of_payloadLeft b hl h) rfl hcnt

/-- Settles O15: once the payload is complete, the class is `CK1`, which leaves `ck_acc` alone. -/
theorem firstTrailerByteIsStoredNotSummed : Obligations.FirstTrailerByteIsStoredNotSummed := by
  intro s b l hl hcnt h
  exact exec_takesByte (classify_of_payloadComplete b hl h) rfl hcnt

end Sys2Proof.Machine

namespace Sys2Proof.Machine

/-! ## What `PUSH` stores and what it leaves alone (spec/41_ringbuffer.md R150) -/

@[simp] theorem State.pushed_rd (s : State) (x : Sample) : (s.pushed x).rb.rd = s.rb.rd := rfl
@[simp] theorem State.pushed_dec (s : State) (x : Sample) : (s.pushed x).dec = s.dec := rfl
@[simp] theorem State.pushed_out (s : State) (x : Sample) : (s.pushed x).out = Out.quiet := rfl
@[simp] theorem State.pushed_ports (s : State) (x : Sample) : (s.pushed x).ports = s.ports := rfl
@[simp] theorem State.pushed_queue (s : State) (x : Sample) : (s.pushed x).queue = s.queue := rfl
@[simp] theorem State.pushed_fresh (s : State) (x : Sample) : (s.pushed x).fresh = s.fresh := rfl

theorem State.read_pushed_same (s : State) (x : Sample) :
    Memory.read (s.pushed x).rb.slots (s.rb.wcur % s.cfg.cap) = some x :=
  Memory.read_write_same ..

theorem State.read_pushed_other {s : State} {j : Nat} (x : Sample) (hj : j ≠ s.rb.wcur % s.cfg.cap) :
    Memory.read (s.pushed x).rb.slots j = Memory.read s.rb.slots j :=
  Memory.read_write_other _ x hj

theorem State.full_iff (s : State) : s.full = true ↔ s.rb.count = s.cfg.cap := beq_iff_eq

/-- The ring holds a sample after a push even where the count saturates, since a legal configuration has `C >= 1` (R244). -/
theorem State.pushed_empty (s : State) (x : Sample) : (s.pushed x).empty = false := by
  have hcap : 0 < s.cfg.cap := s.cfg.capPos
  have hcount : (s.pushed x).rb.count ≠ 0 := by
    rw [State.pushed_count]
    omega
  exact beq_eq_false_iff_ne.mpr hcount

/-- Settles O28: `PUSH` answers `State.pushed`, of which the lemmas above say what it stored and what it left alone. -/
theorem pushStoresAdvancesAndSaturates : Obligations.PushStoresAdvancesAndSaturates := by
  intro s x
  refine ⟨s.pushed x, exec_push x s, State.read_pushed_same s x, fun _ => State.read_pushed_other x, ?cursor, ?count,
    State.pushed_empty s x, State.full_iff _, ?frame⟩
  case cursor => exact State.pushed_wcur s x
  case count => exact State.pushed_count s x
  case frame => simp

end Sys2Proof.Machine

namespace Sys2Proof.Machine

/-! ## A memory that holds a list of bytes from address 0 on -/

section

variable {α : Type} {m m' : List (Nat × α)}

/-- The contents of the first locations of `m` are `vs`. -/
def Memory.Holds (m : List (Nat × α)) (vs : List α) : Prop := ∀ k v, vs[k]? = some v → Memory.read m k = some v

theorem Memory.Holds.snoc {vs : List α} {v : α} (h : Memory.Holds m vs) (hsame : Memory.read m' vs.length = some v)
    (hothers : ∀ j, j ≠ vs.length → Memory.read m' j = Memory.read m j) : Memory.Holds m' (vs ++ [v]) := by
  intro k u hu
  by_cases hk : k = vs.length
  · subst hk
    rw [hsame, ← hu, List.getElem?_concat_length]
  · have hlt : k < vs.length := by
      have hle := (List.getElem?_eq_some_iff.mp hu).1
      simp only [List.length_append, List.length_singleton] at hle
      omega
    rw [hothers k hk, h k u (by rwa [List.getElem?_append_left hlt] at hu)]

theorem Memory.Holds.write {vs : List α} (h : Memory.Holds m vs) (v : α) :
    Memory.Holds (Memory.write m vs.length v) (vs ++ [v]) :=
  h.snoc (Memory.read_write_same ..) fun _ => Memory.read_write_other m v

/-- A range inside what a memory holds reads as that part of it. -/
theorem Memory.Holds.readRange {pre mid post : List α} (h : Memory.Holds m (pre ++ mid ++ post)) :
    Memory.readRange m pre.length mid.length = .ok mid := by
  induction mid generalizing pre with
  | nil => rfl
  | cons v vs ih =>
    have hv : Memory.read m pre.length = some v := h _ _ (by simp)
    have hvs : Memory.readRange m (pre.length + 1) vs.length = .ok vs := by
      simpa using ih (pre := pre ++ [v]) (by simpa using h)
    simp [Memory.readRange, hv, hvs]

end

/-! ## A frame under way (spec/40_decoder.md R134) -/

/-- What `ck_acc` holds once `p` has been stored from `buf[0]` on and summed: the fold from `buf[CK_FIRST]` on (R8, R25). -/
def coveredSum (cfg : Config) (p : List Byte) : Half := ckFold cfg (p.drop cfg.ckFirst)

/-- Folding in the byte of the next index extends the sum by it, covered or not. -/
theorem ckAt_coveredSum (cfg : Config) (p : List Byte) (b : Byte) :
    ckAt cfg p.length (coveredSum cfg p) b = coveredSum cfg (p ++ [b]) := by
  by_cases h : cfg.ckFirst ≤ p.length
  · rw [ckAt_of_covered _ _ h]
    simp [coveredSum, ckFold, List.drop_append_of_le_length h]
  · have hp : p.drop cfg.ckFirst = [] := List.drop_eq_nil_of_le (by omega)
    have hpb : (p ++ [b]).drop cfg.ckFirst = [] := List.drop_eq_nil_of_le (by simp; omega)
    rw [ckAt_of_uncovered _ _ (by omega), coveredSum, coveredSum, hp, hpb]

/-- `SUBMIT` of the bytes `p`, the first of a frame, led from `s` to `t`: each step was silent, and the bytes stand in the
frame buffer, with `ck_acc` and `st` as given. -/
structure FrameUnderWay (s t : State) (p : List Byte) (acc : Half) (st : FsmState) : Prop where
  run : runOps (submits p) s = .next (t, List.replicate p.length Out.quiet)
  st : t.dec.st = st
  cnt : t.dec.cnt.toNat = p.length
  ckAcc : t.dec.ckAcc = acc
  holds : Memory.Holds t.dec.buf p
  ckDropCnt : t.dec.ckDropCnt = s.dec.ckDropCnt
  rb : t.rb = s.rb
  cfg : t.cfg = s.cfg

theorem runOps_singleton {i : Instr} {s t : State} (h : exec i s = .next t) : runOps [i] s = .next (t, [t.out]) :=
  runOps_cons h (runOps_nil t)

theorem submits_append (p q : List Byte) : submits (p ++ q) = submits p ++ submits q := List.map_append

section

variable {s t : State} {p : List Byte} {acc : Half} {st : FsmState}

/-- `cnt` does not wrap within a frame (R22, R162 (a)). -/
theorem FrameUnderWay.toNat_cnt_succ (h : FrameUnderWay s t p acc st) (hp : p.length < 263) :
    (t.dec.cnt + 1).toNat = p.length + 1 := by
  have hcnt := h.cnt
  bv_omega

/-- One more `SUBMIT` after a frame's first bytes ends the run of all of them. -/
theorem FrameUnderWay.run_snoc {b : Byte} {u : State} (h : FrameUnderWay s t p acc st)
    (hexec : exec (.submit b) t = .next u) :
    runOps (submits (p ++ [b])) s = .next (u, List.replicate p.length Out.quiet ++ [u.out]) := by
  rw [submits_append]
  exact runOps_append h.run (runOps_singleton hexec)

/-- A byte taken at the next index is the frame's next byte. -/
theorem FrameUnderWay.snoc {c : ByteClass} {cnt : Count9} {acc' : Half} {st' : FsmState} {b : Byte}
    (h : FrameUnderWay s t p acc st) (hc : classify t.cfg t.dec b = .ok c)
    (hdo : doClass c b t = takeByte p.length cnt acc' st' b t) (hp : p.length < 263) (hcnt : cnt.toNat = p.length + 1) :
    ∃ u, FrameUnderWay s u (p ++ [b]) acc' st' := by
  obtain ⟨u, _, hsubmit, htakes⟩ := exec_takesByte hc hdo hp
  refine ⟨u, ?_⟩
  refine { run := ?run, st := htakes.st, cnt := ?cnt, ckAcc := htakes.ckAcc
           holds := h.holds.snoc htakes.stored htakes.others
           ckDropCnt := htakes.ckDropCnt.trans h.ckDropCnt
           rb := htakes.rb.trans h.rb, cfg := htakes.env.1.trans h.cfg }
  case run => rw [h.run_snoc hsubmit, htakes.out, List.length_append, List.replicate_add]; rfl
  case cnt => rw [htakes.cnt, hcnt, List.length_append, List.length_singleton]

/-- A byte that its class also sums extends the sum (R122, R124 to R129). -/
theorem FrameUnderWay.snocSummed {c : ByteClass} {cnt : Count9} {st' : FsmState} {b : Byte}
    (h : FrameUnderWay s t p (coveredSum s.cfg p) st) (hc : classify t.cfg t.dec b = .ok c)
    (hdo : doClass c b t = takeByte p.length cnt (ckAt t.cfg p.length t.dec.ckAcc b) st' b t)
    (hp : p.length < 263) (hcnt : cnt.toNat = p.length + 1) :
    ∃ u, FrameUnderWay s u (p ++ [b]) (coveredSum s.cfg (p ++ [b])) st' := by
  rw [h.ckAcc, h.cfg, ckAt_coveredSum] at hdo
  exact h.snoc hc hdo hp hcnt

/-- The marker puts a frame under way (R122). -/
theorem frameUnderWay_marker (h : s.dec.st = .waitingForStart) :
    ∃ t, FrameUnderWay s t [s.cfg.startMarker] (coveredSum s.cfg [s.cfg.startMarker]) .gotStart := by
  obtain ⟨t, _, hsubmit, htakes⟩ := exec_takesByte (classify_of_marker h rfl) rfl (by decide)
  refine ⟨t, ?_⟩
  refine { run := ?run, st := htakes.st, cnt := congrArg BitVec.toNat htakes.cnt, ckAcc := ?ckAcc, holds := ?holds
           ckDropCnt := htakes.ckDropCnt, rb := htakes.rb, cfg := htakes.env.1 }
  case run => exact htakes.out ▸ runOps_singleton hsubmit
  case ckAcc =>
    have hnil : coveredSum s.cfg [] = s.cfg.ckInit := by simp [coveredSum, ckFold]
    rw [htakes.ckAcc, ← hnil]
    exact ckAt_coveredSum s.cfg [] s.cfg.startMarker
  case holds => exact Memory.Holds.snoc (m := s.dec.buf) (vs := []) (by simp [Memory.Holds]) htakes.stored htakes.others

/-- The header (R122, R124 to R128). -/
theorem frameUnderWay_header (len seq sysid compid msgid : Byte) (h : s.dec.st = .waitingForStart) :
    ∃ t, FrameUnderWay s t [s.cfg.startMarker, len, seq, sysid, compid, msgid]
      (coveredSum s.cfg [s.cfg.startMarker, len, seq, sysid, compid, msgid]) .gotMessageId := by
  obtain ⟨_, h0⟩ := frameUnderWay_marker h
  obtain ⟨_, h1⟩ := h0.snocSummed (classify_of_gotStart len h0.st) rfl (by simp) rfl
  obtain ⟨_, h2⟩ := h1.snocSummed (classify_of_gotLength seq h1.st) rfl (by simp) rfl
  obtain ⟨_, h3⟩ := h2.snocSummed (classify_of_gotSequence sysid h2.st) rfl (by simp) rfl
  obtain ⟨_, h4⟩ := h3.snocSummed (classify_of_gotSourceSystem compid h3.st) rfl (by simp) rfl
  exact h4.snocSummed (classify_of_gotSourceComponent msgid h4.st) rfl (by simp) rfl

/-! ## The payload -/

theorem stateAt_of_payload {k len : Nat} (h : 6 < k) (hk : k ≤ 6 + len) : stateAt k len = .accumulatingPayload := by
  obtain ⟨j, rfl⟩ := Nat.exists_eq_add_of_le' h
  exact if_pos hk

/-- A payload byte that is still lacking joins the frame under way (R129). -/
theorem FrameUnderWay.snocPayload {l : Byte} (h : FrameUnderWay s t p (coveredSum s.cfg p) (stateAt p.length l.toNat))
    (hl : p[1]? = some l) (h6 : 6 ≤ p.length) (hlt : p.length < 6 + l.toNat) (b : Byte) :
    ∃ u, FrameUnderWay s u (p ++ [b]) (coveredSum s.cfg (p ++ [b])) (stateAt (p ++ [b]).length l.toNat) := by
  have hstate : t.dec.st = .gotMessageId ∧ l ≠ 0 ∨ t.dec.st = .accumulatingPayload ∧ t.dec.cnt.toNat < 6 + l.toNat := by
    obtain heq | hgt := h6.eq_or_lt
    · refine .inl ⟨by rw [h.st, ← heq]; rfl, ?_⟩
      rintro rfl
      exact absurd hlt (Nat.not_lt.mpr h6)
    · exact .inr ⟨by rw [h.st, stateAt_of_payload hgt hlt.le], by rwa [h.cnt]⟩
  have hnext : stateAt (p ++ [b]).length l.toNat = .accumulatingPayload :=
    stateAt_of_payload (by simp; omega) (by simp; omega)
  rw [hnext]
  exact h.snocSummed (classify_of_payloadLeft b (h.holds 1 l hl) hstate) (h.cnt ▸ rfl) (by omega)
    (h.toNat_cnt_succ (by omega))

/-- The rest of the payload (R129), by induction on it. -/
theorem FrameUnderWay.appendPayload {l : Byte} {rest : List Byte}
    (h : FrameUnderWay s t p (coveredSum s.cfg p) (stateAt p.length l.toNat)) (hl : p[1]? = some l)
    (h6 : 6 ≤ p.length) (hlen : p.length + rest.length ≤ 6 + l.toNat) :
    ∃ u, FrameUnderWay s u (p ++ rest) (coveredSum s.cfg (p ++ rest)) (stateAt (p ++ rest).length l.toNat) := by
  induction rest generalizing t p with
  | nil => exact ⟨t, by simpa using h⟩
  | cons b rest ih =>
    simp only [List.length_cons] at hlen
    obtain ⟨u, hu⟩ := h.snocPayload hl h6 (by omega) b
    have hl' : (p ++ [b])[1]? = some l := by rw [List.getElem?_append_left (by omega), hl]
    simpa using ih hu hl' (by simp; omega) (by simp; omega)

/-- The first trailer byte joins a frame whose payload is complete, and is not summed (R130). -/
theorem FrameUnderWay.snocFirstTrailer {l : Byte} (h : FrameUnderWay s t p acc (stateAt p.length l.toNat))
    (hl : p[1]? = some l) (hlen : p.length = 6 + l.toNat) (b : Byte) :
    ∃ u, FrameUnderWay s u (p ++ [b]) acc .gotChecksumByte1 := by
  have hstate : t.dec.st = .gotMessageId ∧ l = 0 ∨ t.dec.st = .accumulatingPayload ∧ t.dec.cnt.toNat = 6 + l.toNat := by
    by_cases h0 : l = 0
    · subst h0
      exact .inl ⟨by rw [h.st, hlen]; rfl, rfl⟩
    · have hpos : 0 < l.toNat := Nat.pos_of_ne_zero fun hz => h0 (BitVec.eq_of_toNat_eq hz)
      exact .inr ⟨by rw [h.st, stateAt_of_payload (by omega) hlen.le], by rw [h.cnt, hlen]⟩
  exact h.snoc (classify_of_payloadComplete b (h.holds 1 l hl) hstate) (by rw [← h.cnt, ← h.ckAcc]; rfl) (by omega)
    (h.toNat_cnt_succ (by omega))

end

/-! ## The last byte of an accepted frame (R131) -/

/-- The row of R121 that selects `CK2`. -/
theorem classify_of_gotChecksumByte1 {cfg : Config} {d : Dec} (b : Byte) (h : d.st = .gotChecksumByte1) :
    classify cfg d b = .ok .ck2 := by simp [classify, h]

/-- The frame record of R95 for a frame that ends in the trailer bytes `c1`, `c2`. -/
def frameWithTrailer (cfg : Config) (seq sysid compid msgid : Byte) (payload : List Byte) (c1 c2 : Byte) : Frame :=
  { len := BitVec.ofNat 8 payload.length, seq := seq, sysid := sysid, compid := compid, msgid := msgid
    payload := payload, ck := rxCk cfg c1 c2
    raw := frameBody cfg seq sysid compid msgid payload ++ [c1, c2] }

theorem frameBody_length (cfg : Config) (seq sysid compid msgid : Byte) (payload : List Byte) :
    (frameBody cfg seq sysid compid msgid payload).length = 6 + payload.length := by
  simp [frameBody]; omega

theorem toNat_lenByte {payload : List Byte} (h : payload.length ≤ 255) :
    (BitVec.ofNat 8 payload.length).toNat = payload.length := by
  rw [BitVec.toNat_ofNat]; omega

section

variable {seq sysid compid msgid : Byte} {payload : List Byte}

/-- `CK2` reads back the record of the frame the buffer holds, header, payload and all its bytes (R95). -/
theorem frameRecord_of_holds {cfg : Config} {m : List Host.Cell} {c1 c2 : Byte} (hlen : payload.length ≤ 255)
    (h : Memory.Holds m (frameBody cfg seq sysid compid msgid payload ++ [c1, c2])) :
    frameRecord cfg m (rxCk cfg c1 c2) = .ok (frameWithTrailer cfg seq sysid compid msgid payload c1 c2) := by
  have hheader : bufBytes cfg m 1 5 = .ok [BitVec.ofNat 8 payload.length, seq, sysid, compid, msgid] :=
    bufBytes_ok.mpr (h.readRange (pre := [cfg.startMarker]) (mid := [_, seq, sysid, compid, msgid])
      (post := payload ++ [c1, c2]))
  have hpayload : bufBytes cfg m 6 payload.length = .ok payload :=
    bufBytes_ok.mpr (h.readRange (pre := [cfg.startMarker, _, seq, sysid, compid, msgid]))
  have hraw : bufBytes cfg m 0 (6 + payload.length + 2) =
      .ok (frameBody cfg seq sysid compid msgid payload ++ [c1, c2]) := by
    have hall := Memory.Holds.readRange (pre := []) (post := []) (by simpa using h)
    rw [List.length_append, frameBody_length] at hall
    exact bufBytes_ok.mpr hall
  simp [frameRecord, hheader, toNat_lenByte hlen, hpayload, hraw, frameWithTrailer]

end

/-- `CK2` emits when the checksum is accepted. -/
theorem doCk2_of_accepted {s : State} {first b : Byte} {f : Frame} (hcnt : s.dec.cnt.toNat < 263)
    (hfirst : Memory.read s.dec.buf (s.dec.cnt - 1).toNat = some first)
    (hacc : ckAccepts s.cfg (rxCk s.cfg first b) s.dec.ckAcc = true)
    (hrec : frameRecord s.cfg (Memory.write s.dec.buf s.dec.cnt.toNat b) (rxCk s.cfg first b) = .ok f) :
    doCk2 b s = .ok { s with dec := s.dec.closed (Memory.write s.dec.buf s.dec.cnt.toNat b),
                             out := { Out.quiet with frame := some f } } := by
  have hstore := bufStore_of_lt (cfg := s.cfg) s.dec.buf b (by simpa using hcnt)
  simp only [doCk2, hstore, bufByte_ok.mpr hfirst, hacc, hrec, if_true]

section

variable {s : State} {seq sysid compid msgid c1 c2 : Byte} {payload : List Byte}

/-- From `WaitingForStart` the bytes before the trailer are taken, all summed that are covered (R122 to R129). -/
theorem frameUnderWay_frameBody (seq sysid compid msgid : Byte) (hst : s.dec.st = .waitingForStart)
    (hlen : payload.length ≤ 255) :
    ∃ t, FrameUnderWay s t (frameBody s.cfg seq sysid compid msgid payload)
      (ckFold s.cfg (coveredBytes s.cfg seq sysid compid msgid payload))
      (stateAt (frameBody s.cfg seq sysid compid msgid payload).length (BitVec.ofNat 8 payload.length).toNat) := by
  obtain ⟨_, h⟩ := frameUnderWay_header (BitVec.ofNat 8 payload.length) seq sysid compid msgid hst
  exact h.appendPayload (l := BitVec.ofNat 8 payload.length) rfl (by simp) (by simp [toNat_lenByte hlen])

/-- A frame whose trailer `CK2` accepts is emitted at its last byte; no step before that asserts a strobe (R131, R134). -/
theorem submitFrame_of_accepted (hst : s.dec.st = .waitingForStart) (hlen : payload.length ≤ 255)
    (hacc : ckAccepts s.cfg (rxCk s.cfg c1 c2)
      (ckFold s.cfg (coveredBytes s.cfg seq sysid compid msgid payload)) = true) :
    ∃ t, runOps (submits (frameBody s.cfg seq sysid compid msgid payload ++ [c1, c2])) s =
        .next (t, List.replicate (7 + payload.length) Out.quiet ++
          [{ Out.quiet with frame := some (frameWithTrailer s.cfg seq sysid compid msgid payload c1 c2) }]) ∧
      t.dec.st = .waitingForStart ∧ t.dec.cnt = 0 ∧ t.dec.ckDropCnt = s.dec.ckDropCnt ∧ t.rb = s.rb := by
  have hbody := frameBody_length s.cfg seq sysid compid msgid payload
  obtain ⟨_, h⟩ := frameUnderWay_frameBody seq sysid compid msgid hst hlen
  obtain ⟨u, hu⟩ := h.snocFirstTrailer rfl (by rw [hbody, toNat_lenByte hlen]) c1
  have hcnt : u.dec.cnt.toNat = 7 + payload.length := by rw [hu.cnt]; simp [hbody]; omega
  have hprev : (u.dec.cnt - 1).toNat = (frameBody s.cfg seq sysid compid msgid payload).length := by
    rw [hbody]; bv_omega
  have hfirst : Memory.read u.dec.buf (u.dec.cnt - 1).toNat = some c1 :=
    hu.holds _ _ (by rw [hprev, List.getElem?_concat_length])
  have hrec : frameRecord u.cfg (Memory.write u.dec.buf u.dec.cnt.toNat c2) (rxCk u.cfg c1 c2) =
      .ok (frameWithTrailer s.cfg seq sysid compid msgid payload c1 c2) := by
    rw [hu.cfg, hu.cnt]
    exact frameRecord_of_holds hlen (by simpa using hu.holds.write c2)
  have hdo := doCk2_of_accepted (by omega) hfirst (by rw [hu.cfg, hu.ckAcc, hacc]) hrec
  have hrun := hu.run_snoc (exec_of_classify (classify_of_gotChecksumByte1 c2 hu.st) hdo).2
  rw [← hu.cnt, hcnt, List.append_assoc] at hrun
  exact ⟨_, hrun, rfl, rfl, hu.ckDropCnt, hu.rb⟩

end

/-! ## A correct checksum (spec/42_collaborators.md R186) -/

/-- The two halves of a checksum, joined. -/
theorem append_halves (ck : Half) : (ck >>> 8).setWidth 8 ++ ck.setWidth 8 = ck := by
  refine BitVec.eq_of_getLsbD_eq fun i hi => ?_
  rw [BitVec.getLsbD_append]
  by_cases h : i < 8
  · simp [h]
  · simp [h, show 8 + (i - 8) = i by omega, show i - 8 < 8 by omega]

/-- A trailer's two bytes give back the checksum they carry, under either `CK_ORDER` (R64, R94). -/
theorem trailer_rxCk (cfg : Config) (ck : Half) : ∃ c1 c2, trailer cfg ck = [c1, c2] ∧ rxCk cfg c1 c2 = ck := by
  cases h : cfg.ckOrder with
  | lowFirst => exact ⟨_, _, by rw [trailer, h], by rw [rxCk, h]; exact append_halves ck⟩
  | highFirst => exact ⟨_, _, by rw [trailer, h], by rw [rxCk, h]; exact append_halves ck⟩

theorem ckAccepts_self (cfg : Config) (ck : Half) : ckAccepts cfg ck ck = true := by simp [ckAccepts]

/-- Settles O26: the trailer carries the very sum DEC holds at the last byte, so `CK2` accepts it in either mode. -/
theorem aCorrectFrameIsNeverDropped : Obligations.ACorrectFrameIsNeverDropped := by
  intro s seq sysid compid msgid payload hst hlen
  obtain ⟨c1, c2, htrailer, hck⟩ :=
    trailer_rxCk s.cfg (ckFold s.cfg (coveredBytes s.cfg seq sysid compid msgid payload))
  have hframe : frameBytes s.cfg seq sysid compid msgid payload =
      frameBody s.cfg seq sysid compid msgid payload ++ [c1, c2] := by rw [frameBytes, htrailer]
  obtain ⟨t, hrun, hwaiting, _⟩ := submitFrame_of_accepted hst hlen (by rw [hck, ckAccepts_self])
  rw [hframe]
  refine ⟨t, _, frameWithTrailer s.cfg seq sysid compid msgid payload c1 c2, hrun, ?frames, ?drops, rfl, rfl, rfl, rfl,
    rfl, rfl, hwaiting⟩
  case frames => simp [framesOf, Out.quiet]
  case drops => simp [dropsOf, Out.quiet]

end Sys2Proof.Machine

namespace Sys2Proof.Machine

/-! ## The count at the second trailer byte (spec/10_state.md R22, R27) -/

theorem lenNat_lt (d : Dec) : lenNat d < 256 := by
  unfold lenNat
  split
  · exact BitVec.isLt _
  · decide

/-- `GotChecksumByte1` is the label of the counts past the payload and the first trailer byte only (R27). -/
theorem lt_of_stateAt_gotChecksumByte1 {k len : Nat} (h : stateAt k len = .gotChecksumByte1) : 6 + len < k := by
  unfold stateAt at h
  split at h
  case h_8 =>
    by_contra hle
    rw [if_pos (Nat.not_lt.mp hle)] at h
    cases h
  all_goals cases h

/-- In `GotChecksumByte1` the header, the payload and the first trailer byte are stored (R22, R27). -/
theorem DecInv.toNat_cnt_of_gotChecksumByte1 {cfg : Config} {d : Dec} (hd : DecInv cfg d)
    (hst : d.st = .gotChecksumByte1) : d.cnt.toNat = 7 + lenNat d := by
  have hpast : 6 + lenNat d < d.cnt.toNat := lt_of_stateAt_gotChecksumByte1 (hd.label.symm.trans hst)
  have hbound := hd.bound
  omega

/-! ## `CK2` on a failed checksum (spec/40_decoder.md R131, spec/60_exceptions.md R212) -/

theorem ckAccepts_of_mismatch {cfg : Config} {rx acc : Half} (hmode : cfg.ckMode = .verify) (hne : rx ≠ acc) :
    ckAccepts cfg rx acc = false := by simp [ckAccepts, hmode, hne]

/-- `CK2` drops the frame and counts it when the checksum is not accepted. -/
theorem doCk2_of_rejected {s : State} {first b : Byte} (hcnt : s.dec.cnt.toNat < 263)
    (hfirst : Memory.read s.dec.buf (s.dec.cnt - 1).toNat = some first)
    (hrej : ckAccepts s.cfg (rxCk s.cfg first b) s.dec.ckAcc = false) :
    doCk2 b s = .ok { s with dec := { s.dec.closed (Memory.write s.dec.buf s.dec.cnt.toNat b) with
                                        ckDropCnt := dropSucc s.cfg s.dec.ckDropCnt },
                             out := { Out.quiet with ckDrop := true } } := by
  have hstore := bufStore_of_lt (cfg := s.cfg) s.dec.buf b (by simpa using hcnt)
  simp only [doCk2, hstore, bufByte_ok.mpr hfirst, hrej, Bool.false_eq_true, if_false]

/-- Both ends of a frame close it: they differ in the drop counter and the outputs only (R131). -/
theorem closesFrame_closed (s : State) (b : Byte) (drops : Nat) (o : Out) :
    ClosesFrame s { s with dec := { s.dec.closed (Memory.write s.dec.buf s.dec.cnt.toNat b) with ckDropCnt := drops },
                           out := o } b where
  st := rfl
  cnt := rfl
  ckAcc := rfl
  stored := Memory.read_write_same ..
  others := fun _ hj => Memory.read_write_other _ b hj
  rb := rfl
  env := ⟨rfl, rfl, rfl, rfl⟩

/-- Settles O17: the invariant puts `cnt` at `7 + LEN`, so the byte has its place in the buffer and the first trailer byte
stands below it; the class is `CK2`, whose checksum fails. -/
theorem failedFrameIsDroppedAndCounted : Obligations.FailedFrameIsDroppedAndCounted := by
  intro s b first hd hst hfirst hmode hne
  have hcnt := hd.toNat_cnt_of_gotChecksumByte1 hst
  have hlen := lenNat_lt s.dec
  have hprev : (s.dec.cnt - 1).toNat = s.dec.cnt.toNat - 1 := by bv_omega
  have hdo := doCk2_of_rejected (by omega) (hprev ▸ hfirst) (ckAccepts_of_mismatch hmode hne)
  obtain ⟨hown, hsubmit⟩ := exec_of_classify (classify_of_gotChecksumByte1 b hst) hdo
  exact ⟨_, hown, hsubmit, rfl, rfl, closesFrame_closed s b _ _⟩

/-! ## A port word with `rst = 1` (spec/60_exceptions.md R221) -/

/-- The turn is `RESET`'s whatever is pending, and the word presents nothing after it. -/
theorem fetch_of_rst {s : State} {w : PortWord} {ws : List PortWord} (h : s.ports = w :: ws)
    (hrst : w.ctl.getLsbD 3 = true) : fetch s = (.reset, { s with ports := ws }) := by
  obtain ⟨hdecode, hrest⟩ := decode_of_rst hrst
  have hne : decode w ≠ .idle := by rw [hdecode]; decide
  rw [fetch_of_ports h hne, hdecode, hrest, presentedTurn_of_none rfl, List.nil_append]

/-- Settles O8: the step fetches `RESET` alone, which answers in every state. -/
theorem resetWinsOverEveryOtherRequest : Obligations.ResetWinsOverEveryOtherRequest := by
  intro s w ws hports hrst
  have hstep : step s = exec .reset { s with ports := ws } := step_of_fetch (fetch_of_rst hports hrst)
  exact ⟨_, hstep, rfl, rfl, rfl⟩

end Sys2Proof.Machine

namespace Sys2Proof.Machine

/-! ## What a port word selects and still presents, bit by bit (spec/30_encoding.md R103, 60_exceptions.md R222) -/

theorem rowHits_reset (c : BitVec 4) : rowHits 0b1000 0b1000 c = c.getLsbD 3 := by
  revert c; decide

theorem rowHits_submit (c : BitVec 4) : rowHits 0b1100 0b0100 c = (!c.getLsbD 3 && c.getLsbD 2) := by
  revert c; decide

theorem rowHits_request (c : BitVec 4) : rowHits 0b1001 0b0001 c = (!c.getLsbD 3 && c.getLsbD 0) := by
  revert c; decide

theorem rowHits_push (c : BitVec 4) : rowHits 0b1010 0b0010 c = (!c.getLsbD 3 && c.getLsbD 1) := by
  revert c; decide

/-- Neither `rd_req` nor `push_valid` is left. -/
theorem and_low_eq_zero (c : BitVec 4) : (c &&& 0b0011 == 0) = (!c.getLsbD 0 && !c.getLsbD 1) := by
  revert c; decide

/-- `push_valid` is not left. -/
theorem and_push_eq_zero (c : BitVec 4) : (c &&& 0b0010 == 0) = !c.getLsbD 1 := by
  revert c; decide

section

variable {w : PortWord}

theorem decode_of_submit (h3 : w.ctl.getLsbD 3 = false) (h2 : w.ctl.getLsbD 2 = true) :
    decode w = .submit w.inByte := by
  rw [decode, rowHits_reset, rowHits_submit, h3, h2]
  rfl

theorem decode_of_request (h3 : w.ctl.getLsbD 3 = false) (h2 : w.ctl.getLsbD 2 = false)
    (h0 : w.ctl.getLsbD 0 = true) : decode w = .latestReq (w.ctx.getD 0) w.rdN := by
  rw [decode, rowHits_reset, rowHits_submit, rowHits_request, h3, h2, h0]
  rfl

theorem decode_of_push (h3 : w.ctl.getLsbD 3 = false) (h2 : w.ctl.getLsbD 2 = false)
    (h0 : w.ctl.getLsbD 0 = false) (h1 : w.ctl.getLsbD 1 = true) : decode w = .push w.pushSample := by
  rw [decode, rowHits_reset, rowHits_submit, rowHits_request, rowHits_push, h3, h2, h0, h1]
  rfl

/-- With no strobe the word gives its context the turn to beat, or is the idle row (R103). -/
theorem decode_of_quiet (h : w.ctl = 0) : decode w = (w.ctx.map Instr.latestBeat).getD .idle := by
  rw [decode, h]
  cases w.ctx <;> rfl

theorem rest_of_submit (h3 : w.ctl.getLsbD 3 = false) (h2 : w.ctl.getLsbD 2 = true) :
    w.rest = if w.ctl.getLsbD 0 || w.ctl.getLsbD 1 then [{ w with ctl := w.ctl &&& 0b0011 }] else [] := by
  rw [PortWord.rest, rowHits_reset, rowHits_submit, and_low_eq_zero, ← Bool.not_or, h3, h2]
  cases w.ctl.getLsbD 0 || w.ctl.getLsbD 1 <;> rfl

theorem rest_of_request (h3 : w.ctl.getLsbD 3 = false) (h2 : w.ctl.getLsbD 2 = false)
    (h0 : w.ctl.getLsbD 0 = true) :
    w.rest = if w.ctl.getLsbD 1 then [{ w with ctl := 0b0010 }] else [] := by
  rw [PortWord.rest, rowHits_reset, rowHits_submit, rowHits_request, and_push_eq_zero, h3, h2, h0]
  cases w.ctl.getLsbD 1 <;> rfl

/-- A word without `in_valid` and `rd_req` presents nothing after its own operation. -/
theorem rest_of_last (h2 : w.ctl.getLsbD 2 = false) (h0 : w.ctl.getLsbD 0 = false) : w.rest = [] := by
  rw [PortWord.rest, rowHits_submit, rowHits_request, h2, h0]
  simp

theorem ctl_eq_zero {c : BitVec 4} (h3 : c.getLsbD 3 = false) (h2 : c.getLsbD 2 = false)
    (h0 : c.getLsbD 0 = false) (h1 : c.getLsbD 1 = false) : c = 0 := by
  revert c; decide

/-- The five ways a port word is read: `RESET` alone, a `SUBMIT`, a request, a `PUSH`, and no strobe. -/
theorem ctl_cases (c : BitVec 4) :
    c.getLsbD 3 = true ∨ (c.getLsbD 3 = false ∧ c.getLsbD 2 = true) ∨
      (c.getLsbD 3 = false ∧ c.getLsbD 2 = false ∧ c.getLsbD 0 = true) ∨
      (c.getLsbD 3 = false ∧ c.getLsbD 2 = false ∧ c.getLsbD 0 = false ∧ c.getLsbD 1 = true) ∨ c = 0 := by
  revert c; decide

end

/-! ## The strobes of one word in order (spec/60_exceptions.md R222) -/

/-- The operations of the `rd_req` and `push_valid` strobes of a word, in their order. -/
def lowOps (w : PortWord) : List Instr :=
  (if w.ctl.getLsbD 0 then [.latestReq (w.ctx.getD 0) w.rdN] else []) ++
    (if w.ctl.getLsbD 1 then [.push w.pushSample] else [])

/-- What a word with neither `rst` nor `in_valid` presents: its request, then its push. -/
theorem decode_cons_rest_of_low {w : PortWord} (h3 : w.ctl.getLsbD 3 = false) (h2 : w.ctl.getLsbD 2 = false)
    (hne : w.ctl ≠ 0) : decode w :: w.rest.map decode = lowOps w := by
  cases h0 : w.ctl.getLsbD 0 with
  | true =>
    rw [decode_of_request h3 h2 h0, rest_of_request h3 h2 h0, lowOps, h0]
    cases h1 : w.ctl.getLsbD 1 with
    | true => rw [if_pos rfl, List.map_singleton, decode_of_push (by simp) (by simp) (by simp) (by simp)]; rfl
    | false => rfl
  | false =>
    have h1 : w.ctl.getLsbD 1 = true := by
      by_contra h1
      exact hne (ctl_eq_zero h3 h2 h0 (Bool.eq_false_iff.mpr h1))
    rw [decode_of_push h3 h2 h0 h1, rest_of_last h2 h0, lowOps, h0, h1]
    rfl

/-- What a word still presents is the word itself with its low strobes after a `SUBMIT`, or with its push alone. -/
theorem mem_rest_cases {w v : PortWord} (hv : v ∈ w.rest) :
    (w.ctl.getLsbD 2 = true ∧ v = { w with ctl := w.ctl &&& 0b0011 }) ∨ v = { w with ctl := 0b0010 } := by
  obtain h3 | ⟨h3, h2⟩ | ⟨h3, h2, h0⟩ | ⟨_, h2, h0, _⟩ | hzero := ctl_cases w.ctl
  · rw [(decode_of_rst h3).2] at hv
    cases hv
  · rw [rest_of_submit h3 h2] at hv
    split at hv
    · exact .inl ⟨h2, List.mem_singleton.mp hv⟩
    · cases hv
  · rw [rest_of_request h3 h2 h0] at hv
    split at hv
    · exact .inr (List.mem_singleton.mp hv)
    · cases hv
  · rw [rest_of_last h2 h0] at hv
    cases hv
  · rw [rest_of_last (by simp [hzero]) (by simp [hzero])] at hv
    cases hv

theorem rest_eq_nil_of_mem_rest_of_low {w v : PortWord} (h2 : w.ctl.getLsbD 2 = false) (hv : v ∈ w.rest) :
    v.rest = [] := by
  obtain ⟨h2', _⟩ | rfl := mem_rest_cases hv
  · rw [h2] at h2'
    cases h2'
  · exact rest_of_last (by simp) (by simp)

/-- A word with neither `rst` nor `in_valid` presents at most two operations, its own and one more. -/
theorem ops_of_low {w : PortWord} (h2 : w.ctl.getLsbD 2 = false) : PortWord.ops w = decode w :: w.rest.map decode := by
  rw [PortWord.ops, List.map_eq_flatMap]
  congr 1
  refine List.flatMap_congr fun v hv => ?_
  rw [rest_eq_nil_of_mem_rest_of_low h2 hv]
  rfl

theorem ops_of_submit {w : PortWord} (h3 : w.ctl.getLsbD 3 = false) (h2 : w.ctl.getLsbD 2 = true) :
    PortWord.ops w = .submit w.inByte :: lowOps w := by
  rw [PortWord.ops, decode_of_submit h3 h2, rest_of_submit h3 h2]
  cases h : w.ctl.getLsbD 0 || w.ctl.getLsbD 1 with
  | false =>
    obtain ⟨h0, h1⟩ := Bool.or_eq_false_iff.mp h
    rw [lowOps, h0, h1]
    rfl
  | true =>
    have hlow : w.ctl &&& 0b0011 ≠ 0 := by
      have hbits := and_low_eq_zero w.ctl
      rw [← Bool.not_or, h] at hbits
      exact beq_eq_false_iff_ne.mp hbits
    have hrest := decode_cons_rest_of_low (w := { w with ctl := w.ctl &&& 0b0011 }) (by simp) (by simp) hlow
    have hops : lowOps { w with ctl := w.ctl &&& 0b0011 } = lowOps w := by simp [lowOps]
    rw [if_pos rfl, List.flatMap_singleton, hrest, hops]

/-- Settles O2: `RESET` discards the rest; otherwise the `SUBMIT` comes first, then what the low strobes present. -/
theorem strobesAreServedInSerialOrder : Obligations.StrobesAreServedInSerialOrder := by
  intro w hne
  show PortWord.ops w = _
  cases h3 : w.ctl.getLsbD 3 with
  | true =>
    obtain ⟨hdecode, hrest⟩ := decode_of_rst h3
    rw [PortWord.ops, hdecode, hrest]
    rfl
  | false =>
    cases h2 : w.ctl.getLsbD 2 with
    | true => exact ops_of_submit h3 h2
    | false => exact (ops_of_low h2).trans (decode_cons_rest_of_low h3 h2 hne)

end Sys2Proof.Machine

namespace Sys2Proof.Machine

/-! ## Encoding and decoding are inverse (spec/30_encoding.md R103, R104, R108) -/

/-- Settles O1: each word is evaluated. -/
theorem portWordsDecodeToTheirRows : Obligations.PortWordsDecodeToTheirRows := by
  unfold Obligations.PortWordsDecodeToTheirRows
  decide

/-- The words `ws` present exactly the operations `is`, with no strobe left over. -/
def Presents (ws : List PortWord) (is : List Instr) : Prop := ws.map decode = is ∧ ws.flatMap PortWord.rest = []

theorem Presents.nil : Presents [] [] := ⟨rfl, rfl⟩

theorem Presents.append {ws vs : List PortWord} {is js : List Instr} (h : Presents ws is) (h' : Presents vs js) :
    Presents (ws ++ vs) (is ++ js) :=
  ⟨by rw [List.map_append, h.1, h'.1], by rw [List.flatMap_append, h.2, h'.2]; rfl⟩

theorem presents_submitWord (b : Byte) : Presents [{ ctl := 0b0100, inByte := b }] [.submit b] :=
  ⟨by simp [decode_of_submit], by simp [rest_of_submit]⟩

/-- The word of a row of R103 or R104 presents its operation, a byte class the `SUBMIT` of its byte. -/
theorem presents_encode (cfg : Config) {i : Instr} (hw : i.hasWord = true) : Presents (encode cfg i) [onPort i] := by
  cases i with
  | reset => exact ⟨rfl, rfl⟩
  | push x => exact ⟨by simp [encode, decode_of_push, onPort], by simp [encode, rest_of_last]⟩
  | latestReq r n => exact ⟨by simp [encode, decode_of_request, onPort], by simp [encode, rest_of_request]⟩
  | latestBeat r => exact ⟨by simp [encode, decode_of_quiet, onPort], by simp [encode, rest_of_last]⟩
  | idle => exact ⟨rfl, rfl⟩
  | processMessage bytes n => cases hw
  | latest r n => cases hw
  | getLatestBatch r c => cases hw
  | isEmptyIsFull => cases hw
  | submit b | start b | noise b | len b | seq b | sysid b | compid b | msgid b | payload b | ck1 b | ck2 b =>
    exact presents_submitWord b

/-- Settles O3: a row's word by the row, a message's words byte by byte. -/
theorem decodeEncodeAgree : Obligations.DecodeEncodeAgree := by
  refine ⟨fun cfg i hw => presents_encode cfg hw, fun cfg bytes n => ?_⟩
  rw [encode, List.map_map]
  exact List.map_congr_left fun b _ => decode_of_submit (by simp) (by simp)

/-- Operations that are rows of R103 are presented, each by its own words, in their order. -/
theorem presents_flatMap_encode (cfg : Config) {is : List Instr} (h : ∀ i ∈ is, i.hasWord = true ∧ onPort i = i) :
    Presents (is.flatMap (encode cfg)) is := by
  induction is with
  | nil => exact Presents.nil
  | cons i is ih =>
    obtain ⟨hi, his⟩ := List.forall_mem_cons.mp h
    have hword := presents_encode cfg hi.1
    rw [hi.2] at hword
    exact hword.append (ih his)

/-- A cycle presents rows of R103 only. -/
theorem hasWord_of_mem_cycleOps {c : Cycle} {i : Instr} (h : i ∈ c.ops) : i.hasWord = true ∧ onPort i = i := by
  unfold Cycle.ops at h
  split at h
  · simp only [List.mem_singleton] at h
    subst h
    exact ⟨rfl, rfl⟩
  · simp only [List.mem_append, List.mem_map] at h
    obtain ((⟨_, _, rfl⟩ | ⟨_, _, rfl⟩) | ⟨_, _, rfl⟩) | ⟨_, _, rfl⟩ := h <;> exact ⟨rfl, rfl⟩

/-- Settles O44: the cycle's operations are rows of R103, each presented by its own word. -/
theorem cycleWordsDecodeToTheSerialOrder : Obligations.CycleWordsDecodeToTheSerialOrder := by
  intro cfg c
  obtain ⟨hdecode, hrest⟩ := presents_flatMap_encode cfg fun _ => hasWord_of_mem_cycleOps (c := c)
  exact ⟨hdecode, hrest, fun hrst => by rw [Cycle.ops, if_pos hrst]⟩

/-! ## The sample packing (spec/30_encoding.md R100) -/

/-- The packed sample as a vector of bits. -/
def packBits (f : SampleFields) : BitVec (64 + 64 + 64 + 64 + 8 + 32) := f.v3 ++ f.v2 ++ f.v1 ++ f.ts ++ f.tag ++ f.seq

theorem packSample_eq (f : SampleFields) : packSample f = (packBits f).toNat := rfl

/-- The fields of a sample of 296 bits, as runs of its bits. -/
def unpackBits (x : BitVec (64 + 64 + 64 + 64 + 8 + 32)) : SampleFields :=
  { seq := x.extractLsb' 0 32, tag := x.extractLsb' 32 8, ts := x.extractLsb' 40 64,
    v1 := x.extractLsb' 104 64, v2 := x.extractLsb' 168 64, v3 := x.extractLsb' 232 64 }

theorem unpackSample_toNat (x : BitVec (64 + 64 + 64 + 64 + 8 + 32)) : unpackSample x.toNat = unpackBits x := rfl

theorem unpackBits_packBits (f : SampleFields) : unpackBits (packBits f) = f := by
  obtain ⟨seq, tag, ts, v1, v2, v3⟩ := f
  rw [unpackBits, packBits, SampleFields.mk.injEq]
  refine ⟨BitVec.extractLsb'_append_eq_right, ?tagBits, ?tsBits, ?v1Bits, ?v2Bits, ?v3Bits⟩
  all_goals rw [BitVec.extractLsb'_append_eq_of_le (by decide)]
  case tagBits => exact BitVec.extractLsb'_append_eq_right
  all_goals rw [BitVec.extractLsb'_append_eq_of_le (by decide)]
  case tsBits => exact BitVec.extractLsb'_append_eq_right
  all_goals rw [BitVec.extractLsb'_append_eq_of_le (by decide)]
  case v1Bits => exact BitVec.extractLsb'_append_eq_right
  all_goals rw [BitVec.extractLsb'_append_eq_of_le (by decide)]
  case v2Bits => exact BitVec.extractLsb'_append_eq_right
  case v3Bits => exact BitVec.extractLsb'_append_eq_left

theorem packBits_unpackBits (x : BitVec (64 + 64 + 64 + 64 + 8 + 32)) : packBits (unpackBits x) = x := by
  rw [packBits, unpackBits]
  iterate 5 rw [BitVec.extractLsb'_append_extractLsb'_eq_extractLsb' (by rfl)]
  exact BitVec.extractLsb'_eq_self

/-- A sample is the number of its bits (R9, R65). -/
theorem exists_toNat_eq {n : Nat} {x : Sample} (h : x < 2 ^ n) : ∃ v : BitVec n, v.toNat = x :=
  ⟨BitVec.ofNatLT x h, rfl⟩

/-- Settles O4: packing appends the fields and unpacking cuts them out again. -/
theorem samplePackingRoundTrips : Obligations.SamplePackingRoundTrips := by
  refine ⟨fun f => ?unpackPacked, fun x hx => ?packUnpacked⟩
  case unpackPacked => rw [packSample_eq, unpackSample_toNat, unpackBits_packBits]
  case packUnpacked =>
    obtain ⟨v, rfl⟩ := exists_toNat_eq hx
    rw [unpackSample_toNat, packSample_eq, packBits_unpackBits]

/-! ## The default checksum step (spec/30_encoding.md R98) -/

/-- Eight bit steps. -/
def crcBits8 (acc : Half) : Half := crcBit (crcBit (crcBit (crcBit (crcBit (crcBit (crcBit (crcBit acc)))))))

theorem crcStepSerial_eq (acc : Half) (b : Byte) : crcStepSerial acc b = crcBits8 (acc ^^^ b.setWidth 16) := rfl

theorem crcBit_eq (x : Half) : crcBit x = x >>> 1 ^^^ if x.getLsbD 0 then 0x8408#16 else 0#16 := by
  unfold crcBit
  split <;> simp

/-- A bit step is linear: it shifts, and adds a constant where the lowest bit is set. -/
theorem crcBit_xor (x y : Half) : crcBit (x ^^^ y) = crcBit x ^^^ crcBit y := by
  have hconst : (if (x ^^^ y).getLsbD 0 then 0x8408#16 else 0#16) =
      (if x.getLsbD 0 then 0x8408#16 else 0#16) ^^^ if y.getLsbD 0 then 0x8408#16 else 0#16 := by
    rw [BitVec.getLsbD_xor]
    cases x.getLsbD 0 <;> cases y.getLsbD 0 <;> rfl
  rw [crcBit_eq, crcBit_eq, crcBit_eq, BitVec.ushiftRight_xor_distrib, hconst]
  ac_rfl

theorem crcBits8_xor (x y : Half) : crcBits8 (x ^^^ y) = crcBits8 x ^^^ crcBits8 y := by
  simp only [crcBits8, crcBit_xor]

/-- The eight bit steps move the high byte down: no bit of it reaches bit 0 before. -/
theorem crcBits8_high (h : Byte) : crcBits8 (h.setWidth 16 <<< 8) = h.setWidth 16 := by
  revert h; decide

/-- What the byte-wise form adds for the low byte of the accumulator and the byte taken, together `t0`. -/
def crcLow (t0 : Byte) : Half :=
  let t1 : Byte := t0 ^^^ (t0 <<< 4)
  (t1.setWidth 16 <<< 8) ^^^ (t1.setWidth 16 <<< 3) ^^^ (t1 >>> 4).setWidth 16

theorem crcBits8_low (t0 : Byte) : crcBits8 (t0.setWidth 16) = crcLow t0 := by
  revert t0; decide

/-- The high byte of the accumulator, alone. -/
theorem setWidth_high (acc : Half) : ((acc >>> 8).setWidth 8).setWidth 16 = acc >>> 8 := by
  refine BitVec.eq_of_toNat_eq ?_
  simp
  omega

/-- The accumulator and the byte as the high byte and `t0`. -/
theorem xor_setWidth_split (acc : Half) (b : Byte) :
    acc ^^^ b.setWidth 16 = ((acc >>> 8).setWidth 8).setWidth 16 <<< 8 ^^^ (b ^^^ acc.setWidth 8).setWidth 16 := by
  have hacc : acc = ((acc >>> 8).setWidth 8).setWidth 16 <<< 8 ^^^ (acc.setWidth 8).setWidth 16 := by
    rw [setWidth_high]
    refine BitVec.eq_of_getLsbD_eq fun i hi => ?_
    by_cases h : i < 8
    · simp [h, hi]
    · simp [h, hi, show 8 + (i - 8) = i by omega]
  rw [BitVec.setWidth_xor]
  conv_lhs => rw [hacc]
  ac_rfl

/-- Settles O5: both forms move the high byte down and fold the low one in by the same table of 256 values. -/
theorem byteWiseAndBitSerialChecksumsAgree : Obligations.ByteWiseAndBitSerialChecksumsAgree := by
  intro acc b
  rw [crcStepSerial_eq, xor_setWidth_split, crcBits8_xor, crcBits8_high, crcBits8_low, setWidth_high]
  simp only [crcStep, crcLow, BitVec.xor_assoc]

end Sys2Proof.Machine

namespace Sys2Proof.Machine

/-! ## `RESET` (spec/70_reset_and_hazards.md R240) -/

/-- The state after `RESET` (R240). -/
def State.cleared (s : State) : State := { s.still with dec := s.dec.afterReset, rb := s.rb.afterReset }

theorem exec_reset (s : State) : exec .reset s = .next s.cleared := rfl

@[simp] theorem State.cleared_cfg (s : State) : s.cleared.cfg = s.cfg := rfl
@[simp] theorem State.cleared_dec (s : State) : s.cleared.dec = s.dec.afterReset := rfl
@[simp] theorem State.cleared_rb (s : State) : s.cleared.rb = s.rb.afterReset := rfl
@[simp] theorem State.cleared_out (s : State) : s.cleared.out = Out.quiet := rfl
@[simp] theorem State.cleared_ports (s : State) : s.cleared.ports = s.ports := rfl
@[simp] theorem State.cleared_queue (s : State) : s.cleared.queue = s.queue := rfl
@[simp] theorem State.cleared_fresh (s : State) : s.cleared.fresh = s.fresh := rfl

@[simp] theorem Rb.afterReset_slots (b : Rb) : b.afterReset.slots = [] := rfl
@[simp] theorem Rb.afterReset_wcur (b : Rb) : b.afterReset.wcur = 0 := rfl
@[simp] theorem Rb.afterReset_count (b : Rb) : b.afterReset.count = 0 := rfl
@[simp] theorem Rb.afterReset_rd (b : Rb) : b.afterReset.rd = b.rd.map RdCtx.released := rfl

/-- `RESET` releases every context; one that does not exist reads as idle before and after. -/
theorem State.cleared_ctx (s : State) (r : Nat) : s.cleared.ctx r = (s.ctx r).released := by
  by_cases hr : r < s.rb.rd.length <;> simp [State.ctx, List.getD, hr, RdCtx.released, RdCtx.idle]

/-- An empty ring is not full (R45, R244). -/
theorem State.cleared_full (s : State) : s.cleared.full = false := by
  have hcap : 0 ≠ s.cfg.cap := (Nat.pos_iff_ne_zero.mp s.cfg.capPos).symm
  exact beq_eq_false_iff_ne.mpr hcap

/-- Settles O7, field by field of `State.cleared`. -/
theorem resetClearsBothUnits : Obligations.ResetClearsBothUnits := by
  intro s
  refine ⟨s.cleared, exec_reset s, rfl, rfl, rfl, rfl, rfl, ?busy, fun _ => rfl, fun _ => rfl, rfl, ?kept, ?contexts, rfl,
    rfl, rfl, s.cleared_full, rfl, rfl, rfl, rfl⟩
  case busy => intro r; rw [s.cleared_ctx, RdCtx.released_busy]
  case kept => intro r; simp [s.cleared_ctx]
  case contexts => simp

/-! ## The idle row, the status reads and `processMessage` (spec/30_encoding.md R103, R106, R108) -/

theorem exec_idle (s : State) : exec .idle s = .next s.still := rfl

/-- Settles O9: the idle row answers the still state. -/
theorem idleChangesNoState : Obligations.IdleChangesNoState := fun s => exec_idle s

theorem State.empty_iff (s : State) : s.empty = true ↔ s.rb.count = 0 := beq_iff_eq

theorem exec_isEmptyIsFull (s : State) :
    exec .isEmptyIsFull s = .next { s with out := { Out.quiet with flags := some (s.empty, s.full) } } := rfl

/-- Settles O48: the flags are the status outputs. -/
theorem statusReadsTheCount : Obligations.StatusReadsTheCount :=
  fun s => ⟨s.empty, s.full, exec_isEmptyIsFull s, s.empty_iff, s.full_iff⟩

/-- The state after `processMessage` (R108). -/
def State.told (s : State) (bytes : List Byte) (n : Nat) : State :=
  { s.still.owe (submits (s.messageBytes bytes n)) with fresh := s.fresh + (n - bytes.length) }

theorem exec_processMessage (bytes : List Byte) (n : Nat) (s : State) :
    exec (.processMessage bytes n) s = .next (s.told bytes n) := rfl

@[simp] theorem State.told_cfg (s : State) (bytes : List Byte) (n : Nat) : (s.told bytes n).cfg = s.cfg := rfl
@[simp] theorem State.told_dec (s : State) (bytes : List Byte) (n : Nat) : (s.told bytes n).dec = s.dec := rfl
@[simp] theorem State.told_rb (s : State) (bytes : List Byte) (n : Nat) : (s.told bytes n).rb = s.rb := rfl
@[simp] theorem State.told_out (s : State) (bytes : List Byte) (n : Nat) : (s.told bytes n).out = Out.quiet := rfl
@[simp] theorem State.told_ports (s : State) (bytes : List Byte) (n : Nat) : (s.told bytes n).ports = s.ports := rfl
@[simp] theorem State.told_queue (s : State) (bytes : List Byte) (n : Nat) :
    (s.told bytes n).queue = submits (s.messageBytes bytes n) ++ s.queue := rfl

/-- No byte past the end is submitted where the length is within the bytes. -/
theorem State.messageBytes_of_le (s : State) {bytes : List Byte} {n : Nat} (h : n ≤ bytes.length) :
    s.messageBytes bytes n = bytes.take n := by
  rw [State.messageBytes, Nat.sub_eq_zero_of_le h]
  exact List.append_nil _

theorem State.messageBytes_length (s : State) (bytes : List Byte) : s.messageBytes bytes bytes.length = bytes := by
  rw [s.messageBytes_of_le le_rfl, List.take_length]

/-- A length past the end takes every byte given, and free values after them (log entry 13). -/
theorem State.messageBytes_of_lt (s : State) {bytes : List Byte} {n : Nat} (h : bytes.length < n) :
    s.messageBytes bytes n =
      bytes ++ (List.range (n - bytes.length)).map fun k => Config.freeByte (s.fresh + k) := by
  rw [State.messageBytes, List.take_of_length_le h.le]

/-- Settles O45: the bytes submitted are those given, and past the end the free values. -/
theorem processMessageIsItsSubmits : Obligations.ProcessMessageIsItsSubmits := by
  intro s bytes n
  constructor
  · intro h
    rw [exec_processMessage, State.told, s.messageBytes_of_le h, Nat.sub_eq_zero_of_le h]
    rfl
  · intro h
    refine ⟨(List.range (n - bytes.length)).map fun k => Config.freeByte (s.fresh + k), by simp, ?_, ?_⟩
    · intro k hk
      simp [hk]
    · rw [exec_processMessage, State.told, s.messageBytes_of_lt h]
      rfl

/-! ## Requests and beats (spec/41_ringbuffer.md R155 to R158) -/

section

variable {s : State} {r : Nat}

theorem exec_latestReq_of_free (n : Nat) (hctx : s.hasCtx r = true) (hfree : (s.ctx r).busy = false) :
    exec (.latestReq r n) s = .next (doRequest r n s) := by simp [exec, execLatestReq, hctx, hfree]

theorem exec_latestReq_of_busy (n : Nat) (hctx : s.hasCtx r = true) (hbusy : (s.ctx r).busy = true) :
    exec (.latestReq r n) s = .next (s.wait (.latestReq r n)) := by simp [exec, execLatestReq, hctx, hbusy]

theorem exec_latest_of_free (n : Nat) (hctx : s.hasCtx r = true) (hfree : (s.ctx r).busy = false) :
    exec (.latest r n) s = .next (startRead r n s) := by simp [exec, execLatest, hctx, hfree]

theorem exec_latest_of_busy (n : Nat) (hctx : s.hasCtx r = true) (hbusy : (s.ctx r).busy = true) :
    exec (.latest r n) s = .next (s.wait (.latest r n)) := by simp [exec, execLatest, hctx, hbusy]

theorem exec_getLatestBatch_of_nonpos (s : State) (r : Nat) {c : Int} (hc : c ≤ 0) :
    exec (.getLatestBatch r c) s = .next { s with out := { Out.quiet with hostFail := true } } := by
  simp [exec, execGetLatestBatch, hc]

theorem exec_getLatestBatch_of_free {c : Int} (hc : 0 < c) (hctx : s.hasCtx r = true) (hfree : (s.ctx r).busy = false) :
    exec (.getLatestBatch r c) s = .next (startRead r (batchCount s.cfg c) s) := by
  simp [exec, execGetLatestBatch, not_le.mpr hc, hctx, hfree]

theorem exec_getLatestBatch_of_busy {c : Int} (hc : 0 < c) (hctx : s.hasCtx r = true) (hbusy : (s.ctx r).busy = true) :
    exec (.getLatestBatch r c) s = .next (s.wait (.getLatestBatch r c)) := by
  simp [exec, execGetLatestBatch, not_le.mpr hc, hctx, hbusy]

theorem exec_latestBeat_of_free (hctx : s.hasCtx r = true) (hfree : (s.ctx r).busy = false) :
    exec (.latestBeat r) s = .next s.still := by simp [exec, execLatestBeat, hctx, hfree]

/-- Replacing a context leaves the rest of the machine but the outputs and the pending operations (R75). -/
theorem onlyContext_setCtx (s : State) (r : Nat) (c : RdCtx) (o : Out) (q : List Instr) :
    OnlyContext r s { s.setCtx r c with out := o, queue := q } where
  dec := rfl
  slots := rfl
  wcur := rfl
  count := rfl
  others := fun _ hq => s.setCtx_ctx_other c hq
  width := List.length_set
  env := ⟨rfl, rfl, rfl⟩

theorem onlyContext_doRequest (s : State) (r n : Nat) : OnlyContext r s (doRequest r n s) :=
  onlyContext_setCtx s r (snapshot s n) Out.quiet s.queue

theorem onlyContext_beaten (s : State) (r : Nat) (x : Sample) : OnlyContext r s (s.beaten r x) :=
  onlyContext_setCtx s r _ _ s.queue

/-- An accepted request leaves the snapshot in its context. -/
theorem doRequest_ctx (n : Nat) (hctx : s.hasCtx r = true) : (doRequest r n s).ctx r = snapshot s n :=
  State.setCtx_ctx_same s.still _ hctx

theorem State.beaten_ctx (x : Sample) (hctx : s.hasCtx r = true) :
    (s.beaten r x).ctx r = (s.ctx r).beaten s.cfg.cap x := State.setCtx_ctx_same s _ hctx

/-- `i + 1` does not wrap below the capacity (R162 (j)). -/
theorem beatIndexSucc_of_lt {cfg : Config} {i : Nat} (h : i < cfg.cap) : beatIndexSucc cfg.cap i = i + 1 :=
  Nat.mod_eq_of_lt (Nat.lt_of_le_of_lt h cfg.cap_lt)

/-- A beat is the last one when it makes up the `m` of its read (R49). -/
theorem RdCtx.last_of_lt {cfg : Config} {c : RdCtx} (h : c.i < cfg.cap) : c.last cfg.cap = decide (c.i + 1 = c.m) := by
  rw [RdCtx.last, beatIndexSucc_of_lt h]
  rfl

theorem batchCount_of_pos (cfg : Config) {c : Int} (hc : 0 < c) :
    (batchCount cfg c : Int) = min c (2 ^ cfg.nw - 1) := by
  have hpow : ((2 ^ cfg.nw - 1 : Nat) : Int) = 2 ^ cfg.nw - 1 := by
    rw [Nat.cast_sub Nat.one_le_two_pow]
    norm_cast
  rw [batchCount, Nat.cast_min, Int.toNat_of_nonneg hc.le, hpow]

end

/-- Settles O34: each operation tests first whether the context exists, and a beat then whether it is busy. -/
theorem beatsBelongToBusyContexts : Obligations.BeatsBelongToBusyContexts := by
  intro s r n c
  refine ⟨exec_latestBeat_of_free, fun h => ⟨?beat, ?request, ?latest, fun hc => ?batch⟩⟩
  case beat => simp [exec, execLatestBeat, h]
  case request => simp [exec, execLatestReq, h]
  case latest => simp [exec, execLatest, h]
  case batch => simp [exec, execGetLatestBatch, not_le.mpr hc, h]

/-- Settles O32: a request on a busy context waits. -/
theorem requestOnABusyContextWaits : Obligations.RequestOnABusyContextWaits := by
  intro s r n hctx hbusy
  exact ⟨by rw [State.rdReady, hbusy]; rfl, exec_latestReq_of_busy n hctx hbusy⟩

/-- Settles O31: the request answers `doRequest`, whose context is the snapshot. -/
theorem requestTakesTheSnapshot : Obligations.RequestTakesTheSnapshot := by
  intro s r n hctx hfree
  refine ⟨doRequest r n s, exec_latestReq_of_free n hctx hfree, onlyContext_doRequest s r n, rfl, rfl, ?_⟩
  rw [State.rdCount, doRequest_ctx n hctx]
  exact ⟨rfl, rfl, rfl, rfl, bne_iff_ne, rfl⟩

/-- Settles O33: the beat answers `State.beaten`, whose context is `RdCtx.beaten`. -/
theorem beatReturnsTheSlotUnderTheReadPointer : Obligations.BeatReturnsTheSlotUnderTheReadPointer := by
  intro s r x hctx hbusy hi hm hx
  have hlast := RdCtx.last_of_lt (Nat.lt_of_lt_of_le hi hm)
  refine ⟨s.beaten r x, exec_latestBeat_of_read hctx hbusy hx, onlyContext_beaten s r x, rfl, ?out, ?_⟩
  case out => rw [← hlast]; rfl
  rw [State.beaten_ctx x hctx]
  refine ⟨beatIndexSucc_of_lt (Nat.lt_of_lt_of_le hi hm), ?busy, rfl, rfl, rfl⟩
  case busy => simp [hlast]

/-- Settles O46: `latest` on a free context is the accepted request, which then owes its beats. -/
theorem latestIsARequestAndItsBeats : Obligations.LatestIsARequestAndItsBeats := by
  intro s r n hctx
  exact ⟨fun hfree => ⟨_, exec_latestReq_of_free n hctx hfree, exec_latest_of_free n hctx hfree⟩,
    exec_latest_of_busy n hctx⟩

/-- Settles O47: a positive count is `latest` of its bound; the projection is of the unpacked fields. -/
theorem getLatestBatchIsLatestProjected : Obligations.GetLatestBatchIsLatestProjected := by
  refine ⟨fun s r c => ⟨exec_getLatestBatch_of_nonpos s r, ?free, exec_getLatestBatch_of_busy, batchCount_of_pos s.cfg⟩,
    ?projection, fun s r => rfl⟩
  case free =>
    intro hc hctx hfree
    exact ⟨_, exec_getLatestBatch_of_free hc hctx hfree, exec_latest_of_free _ hctx hfree⟩
  case projection =>
    intro f
    rw [projectSample, samplePackingRoundTrips.1 f]

/-! ## What one operation can do, said once -/

/-- Operation `i` performed in `s` leaves `t`: what each operation of spec/opcode_table.json can answer. -/
inductive Effect (s : State) : Instr → State → Prop
  /-- A byte is taken in its class (R120, R104). -/
  | takes {i : Instr} {b : Byte} {c : ByteClass} {t : State} (hi : i = .submit b ∨ i = ofClass c b)
      (hc : classify s.cfg s.dec b = .ok c) (ht : doClass c b s = .ok t) : Effect s i t
  /-- `RESET` (R240). -/
  | clears : Effect s .reset s.cleared
  /-- `PUSH` (R150). -/
  | pushes (x : Sample) : Effect s (.push x) (s.pushed x)
  /-- An operation waits for its busy context (R156). -/
  | waits {i : Instr} {r : Nat} (hi : needsFree i = some r) (hbusy : (s.ctx r).busy = true) : Effect s i (s.wait i)
  /-- A request is accepted (R155). -/
  | requests {r n : Nat} (hctx : s.hasCtx r = true) (hfree : (s.ctx r).busy = false) :
      Effect s (.latestReq r n) (doRequest r n s)
  /-- `latest` or `getLatestBatch` is accepted (R108). -/
  | reads {i : Instr} {r n : Nat} (hi : i = .latest r n ∨ ∃ c, i = .getLatestBatch r c) (hctx : s.hasCtx r = true)
      (hfree : (s.ctx r).busy = false) : Effect s i (startRead r n s)
  /-- A busy context beats (R158). -/
  | beats {r : Nat} {x : Sample} (hctx : s.hasCtx r = true) (hbusy : (s.ctx r).busy = true)
      (hx : Memory.read s.rb.slots (s.rptr r) = some x) : Effect s (.latestBeat r) (s.beaten r x)
  /-- The idle row, or a beat of a context that has none (R106). -/
  | idles {i : Instr} (hi : i = .idle ∨ ∃ r, i = .latestBeat r) : Effect s i s.still
  /-- `processMessage` (R108). -/
  | tells (bytes : List Byte) (n : Nat) : Effect s (.processMessage bytes n) (s.told bytes n)
  /-- The host is answered, and the block is left alone (R108, R195). -/
  | answers {i : Instr} {o : Out} (hi : i = .isEmptyIsFull ∨ ∃ r c, i = .getLatestBatch r c) (hframe : o.frame = none)
      (hdrop : o.ckDrop = false) : Effect s i { s with out := o }

section

variable {s t : State}

theorem Effect.of_latestReq {r n : Nat} (h : exec (.latestReq r n) s = .next t) : Effect s (.latestReq r n) t := by
  obtain ⟨hctx, ⟨hbusy, rfl⟩ | ⟨hfree, rfl⟩⟩ := execLatestReq_next h
  · exact .waits rfl hbusy
  · exact .requests hctx hfree

theorem Effect.of_latestBeat {r : Nat} (h : exec (.latestBeat r) s = .next t) : Effect s (.latestBeat r) t := by
  obtain ⟨hctx, ⟨hbusy, hbeat⟩ | ⟨_, rfl⟩⟩ := execLatestBeat_next h
  · obtain ⟨x, hx, rfl⟩ := doBeat_ok hbeat
    exact .beats hctx hbusy hx
  · exact .idles (.inr ⟨r, rfl⟩)

theorem Effect.of_latest {r n : Nat} (h : exec (.latest r n) s = .next t) : Effect s (.latest r n) t := by
  cases hctx : s.hasCtx r with
  | false => simp [exec, execLatest, hctx] at h
  | true =>
    cases hbusy : (s.ctx r).busy with
    | true =>
      rw [exec_latest_of_busy n hctx hbusy] at h
      cases h
      exact .waits rfl hbusy
    | false =>
      rw [exec_latest_of_free n hctx hbusy] at h
      cases h
      exact .reads (.inl rfl) hctx hbusy

theorem needsFree_getLatestBatch (r : Nat) {c : Int} (hc : 0 < c) : needsFree (.getLatestBatch r c) = some r :=
  if_neg (not_le.mpr hc)

theorem Effect.of_getLatestBatch {r : Nat} {c : Int} (h : exec (.getLatestBatch r c) s = .next t) :
    Effect s (.getLatestBatch r c) t := by
  by_cases hc : c ≤ 0
  · rw [exec_getLatestBatch_of_nonpos s r hc] at h
    cases h
    exact .answers (.inr ⟨r, c, rfl⟩) rfl rfl
  have hpos : 0 < c := not_le.mp hc
  cases hctx : s.hasCtx r with
  | false => simp [exec, execGetLatestBatch, hc, hctx] at h
  | true =>
    cases hbusy : (s.ctx r).busy with
    | true =>
      rw [exec_getLatestBatch_of_busy hpos hctx hbusy] at h
      cases h
      exact .waits (needsFree_getLatestBatch r hpos) hbusy
    | false =>
      rw [exec_getLatestBatch_of_free hpos hctx hbusy] at h
      cases h
      exact .reads (.inr ⟨c, rfl⟩) hctx hbusy

theorem Effect.of_ofClass {c : ByteClass} {b : Byte} (h : exec (ofClass c b) s = .next t) :
    Effect s (ofClass c b) t := by
  rw [exec_ofClass] at h
  obtain ⟨hc, ht⟩ := inClass_next h
  exact .takes (.inr rfl) hc ht

/-- What an operation that answers a next state did. -/
theorem exec_effect {i : Instr} (h : exec i s = .next t) : Effect s i t := by
  cases i with
  | reset => cases h; exact .clears
  | submit b =>
    obtain ⟨c, hc, ht⟩ := execSubmit_next h
    exact .takes (.inl rfl) hc ht
  | push x => cases h; exact .pushes x
  | latestReq r n => exact .of_latestReq h
  | latestBeat r => exact .of_latestBeat h
  | idle => cases h; exact .idles (.inl rfl)
  | start b => exact .of_ofClass (c := .start) h
  | noise b => exact .of_ofClass (c := .noise) h
  | len b => exact .of_ofClass (c := .len) h
  | seq b => exact .of_ofClass (c := .seq) h
  | sysid b => exact .of_ofClass (c := .sysid) h
  | compid b => exact .of_ofClass (c := .compid) h
  | msgid b => exact .of_ofClass (c := .msgid) h
  | payload b => exact .of_ofClass (c := .payload) h
  | ck1 b => exact .of_ofClass (c := .ck1) h
  | ck2 b => exact .of_ofClass (c := .ck2) h
  | processMessage bytes n => cases h; exact .tells bytes n
  | latest r n => exact .of_latest h
  | getLatestBatch r c => exact .of_getLatestBatch h
  | isEmptyIsFull => cases h; exact .answers (.inl rfl) rfl rfl

end

end Sys2Proof.Machine

namespace Sys2Proof.Machine

/-! ## What the byte operations can do (spec/40_decoder.md R120 to R131) -/

section

variable {s t : State} {b : Byte} {c : ByteClass}

/-- A `SUBMIT` or a byte class that answers a next state performed the class R121 selects. -/
theorem exec_byte_next {i : Instr} (hi : i = .submit b ∨ ∃ c, i = ofClass c b) (h : exec i s = .next t) :
    ∃ c, classify s.cfg s.dec b = .ok c ∧ doClass c b s = .ok t := by
  obtain rfl | ⟨c, rfl⟩ := hi
  · exact execSubmit_next h
  · rw [exec_ofClass] at h
    exact ⟨c, inClass_next h⟩

/-- `CK2` is selected in `GotChecksumByte1` only (R121). -/
theorem st_of_classify_ck2 {cfg : Config} {d : Dec} (h : classify cfg d b = .ok .ck2) : d.st = .gotChecksumByte1 := by
  unfold classify at h
  split at h
  case h_9 hst => exact hst
  case h_1 => split at h <;> cases h
  case h_7 | h_8 =>
    split at h
    · split at h <;> cases h
    · cases h
  all_goals cases h

/-- No class but `CK2` asserts a strobe or moves the drop counter. -/
theorem doClass_quiet (h : doClass c b s = .ok t) (hc : c ≠ .ck2) :
    t.out = Out.quiet ∧ t.dec.ckDropCnt = s.dec.ckDropCnt := by
  by_cases hn : c = .noise
  · subst hn
    cases h
    exact ⟨rfl, rfl⟩
  · obtain ⟨_, _, _, _, _, htakes⟩ := doClass_takes h hn hc
    obtain ⟨_, rfl⟩ := takeByte_ok htakes
    exact ⟨rfl, rfl⟩

/-- The byte goes to the store index of its class, and to no other. -/
theorem doClass_buf (h : doClass c b s = .ok t) :
    (∀ k, storeIndex c s.dec ≠ some k → Memory.read t.dec.buf k = Memory.read s.dec.buf k) ∧
      (∀ k, storeIndex c s.dec = some k → Memory.read t.dec.buf k = some b) := by
  have hwrite : ∀ j, storeIndex c s.dec = some j → t.dec.buf = Memory.write s.dec.buf j b →
      (∀ k, storeIndex c s.dec ≠ some k → Memory.read t.dec.buf k = Memory.read s.dec.buf k) ∧
        (∀ k, storeIndex c s.dec = some k → Memory.read t.dec.buf k = some b) := by
    intro j hj hbuf
    rw [hj, hbuf]
    refine ⟨fun k hk => Memory.read_write_other _ b fun hkj => hk (congrArg some hkj.symm), ?_⟩
    rintro k ⟨rfl⟩
    exact Memory.read_write_same ..
  by_cases hn : c = .noise
  · subst hn
    cases h
    exact ⟨fun _ _ => rfl, fun k hk => by cases hk⟩
  by_cases h2 : c = .ck2
  · subst h2
    obtain ⟨_, _, _, ⟨_, _, _, rfl⟩ | ⟨_, rfl⟩⟩ := doCk2_ok h <;> exact hwrite _ rfl rfl
  · obtain ⟨_, _, _, _, hindex, htakes⟩ := doClass_takes h hn h2
    obtain ⟨_, rfl⟩ := takeByte_ok htakes
    exact hwrite _ hindex rfl

/-- `NOISE` and the trailer classes leave the sum (R123, R130, R131). -/
theorem doClass_ckAcc_of_trailer (h : doClass c b s = .ok t) (hc : c = .noise ∨ c = .ck1 ∨ c = .ck2) :
    t.dec.ckAcc = s.dec.ckAcc := by
  obtain rfl | rfl | rfl := hc
  · cases h
    rfl
  · obtain ⟨_, rfl⟩ := takeByte_ok h
    rfl
  · obtain ⟨_, _, _, ⟨_, _, _, rfl⟩ | ⟨_, rfl⟩⟩ := doCk2_ok h <;> rfl

/-- Every other class folds its byte in from `CK_FIRST` on, `START` into `CK_INIT` (R122, R124 to R129). -/
theorem doClass_ckAcc {k : Nat} (h : doClass c b s = .ok t) (hk : storeIndex c s.dec = some k) (h1 : c ≠ .ck1)
    (h2 : c ≠ .ck2) : t.dec.ckAcc = ckAt s.cfg k (if c = .start then s.cfg.ckInit else s.dec.ckAcc) b := by
  cases c
  case noise => cases hk
  case ck1 => exact absurd rfl h1
  case ck2 => exact absurd rfl h2
  all_goals
    obtain ⟨_, rfl⟩ := takeByte_ok h
    cases hk
    rfl

end

/-- Settles O14: the class's sum is `ckAt` of its index. -/
theorem checksumCoverageStartsAtCkFirst : Obligations.ChecksumCoverageStartsAtCkFirst := by
  intro s t b c k h hk h1 h2
  rw [exec_ofClass] at h
  rw [doClass_ckAcc (inClass_next h).2 hk h1 h2]
  exact ⟨ckAt_of_covered _ b, ckAt_of_uncovered _ b⟩

/-- Settles O18: both operations settle the effect of the class selected. -/
theorem submitPerformsExactlyItsClass : Obligations.SubmitPerformsExactlyItsClass := by
  intro s b c hc
  constructor
  · rw [exec_ofClass, inClass_selected _ hc, exec, execSubmit, hc]
  · intro c' hne
    simp [exec_ofClass, inClass, hc, hne.symm]

/-- Settles O21: the block outside DEC by `doClass_env`, the buffer by `doClass_buf`. -/
theorem decoderOperationsChangeOnlyTheirOwn : Obligations.DecoderOperationsChangeOnlyTheirOwn := by
  intro s t b i hi h
  obtain ⟨c, hc, ht⟩ := exec_byte_next hi h
  obtain ⟨hrb, hcfg, hports, hqueue, hfresh⟩ := doClass_env ht
  obtain ⟨hothers, hstored⟩ := doClass_buf ht
  exact ⟨hrb, hcfg, hports, hqueue, hfresh, c, hc, hothers, hstored, fun hne => (doClass_quiet ht hne).symm,
    doClass_ckAcc_of_trailer ht⟩

/-! ## The decoder under every operation (spec/10_state.md R26, R28) -/

/-- An operation either took a byte, or asserted no strobe of DEC and left DEC as it was, but for `RESET`. -/
theorem Effect.dec_cases {s t : State} {i : Instr} (h : Effect s i t) :
    (∃ b c, (i = .submit b ∨ i = ofClass c b) ∧ classify s.cfg s.dec b = .ok c ∧ doClass c b s = .ok t) ∨
      (t.out.frame = none ∧ t.out.ckDrop = false ∧ (i = .reset ∨ t.dec = s.dec)) := by
  cases h with
  | takes hi hc ht => exact .inl ⟨_, _, hi, hc, ht⟩
  | clears => exact .inr ⟨rfl, rfl, .inl rfl⟩
  | answers _ hframe hdrop => exact .inr ⟨hframe, hdrop, .inr rfl⟩
  | pushes | waits | requests | reads | beats | idles | tells => exact .inr ⟨rfl, rfl, .inr rfl⟩

/-- A `CK2` step asserts exactly one of the two strobes (R131). -/
theorem doCk2_strobes {b : Byte} {s t : State} (h : doCk2 b s = .ok t) :
    t.out.frame.isSome = true ↔ t.out.ckDrop = false := by
  obtain ⟨_, _, _, ⟨_, _, _, rfl⟩ | ⟨_, rfl⟩⟩ := doCk2_ok h
  · simp [Out.quiet]
  · simp [Out.quiet]

/-- Settles O22: a step with a strobe of DEC took a byte, and no class but `CK2` asserts one. -/
theorem decoderStrobesOnlyAtTheLastByte : Obligations.DecoderStrobesOnlyAtTheLastByte := by
  intro i s t h
  constructor
  · intro hstrobe
    obtain ⟨b, c, hi, hc, ht⟩ | ⟨hframe, hdrop, _⟩ := (exec_effect h).dec_cases
    · by_cases h2 : c = .ck2
      · subst h2
        exact ⟨st_of_classify_ck2 hc, b, hi⟩
      · rw [(doClass_quiet ht h2).1] at hstrobe
        simp [Out.quiet] at hstrobe
    · simp [hframe, hdrop] at hstrobe
  · intro b hst hi
    obtain ⟨c, hc, ht⟩ := exec_byte_next (hi.imp_right fun h => ⟨.ck2, h⟩) h
    rw [classify_of_gotChecksumByte1 b hst] at hc
    cases hc
    exact doCk2_strobes ht

/-- A `CK2` step counts exactly the frame it drops, which it never does in `BYPASS` (R26, R137). -/
theorem doCk2_drops {b : Byte} {s t : State} (h : doCk2 b s = .ok t) :
    t.dec.ckDropCnt = (if t.out.ckDrop then (s.dec.ckDropCnt + 1) % 2 ^ s.cfg.dropW else s.dec.ckDropCnt) ∧
      (s.cfg.ckMode = .bypass → t.out.ckDrop = false) := by
  obtain ⟨_, _, _, ⟨_, _, _, rfl⟩ | ⟨hrej, rfl⟩⟩ := doCk2_ok h
  · exact ⟨rfl, fun _ => rfl⟩
  · refine ⟨rfl, fun hmode => ?_⟩
    simp [ckAccepts, hmode] at hrej

/-- Settles O23: no operation but `RESET` moves the counter unless it is a `CK2` that drops. -/
theorem dropCounterCountsDropsOnly : Obligations.DropCounterCountsDropsOnly := by
  intro i s t h hreset
  have hcount : t.dec.ckDropCnt =
      (if t.out.ckDrop then (s.dec.ckDropCnt + 1) % 2 ^ s.cfg.dropW else s.dec.ckDropCnt) ∧
      (s.cfg.ckMode = .bypass → t.out.ckDrop = false) := by
    obtain ⟨b, c, _, _, ht⟩ | ⟨_, hdrop, hdec⟩ := (exec_effect h).dec_cases
    · by_cases h2 : c = .ck2
      · subst h2
        exact doCk2_drops ht
      · obtain ⟨hout, hcnt⟩ := doClass_quiet ht h2
        simp [hout, hcnt, Out.quiet]
    · simp [hdrop, hdec.resolve_left hreset]
  refine ⟨hcount.1, fun hmode => ?_⟩
  have hdrop := hcount.2 hmode
  exact ⟨hdrop, by simpa [hdrop] using hcount.1⟩

/-! ## The ring under every operation (spec/10_state.md R42, R43) -/

/-- The configuration, the slots, the cursor and the count of `t` are those of `s`. -/
structure SameRing (s t : State) : Prop where
  cfg : t.cfg = s.cfg
  slots : t.rb.slots = s.rb.slots
  wcur : t.rb.wcur = s.rb.wcur
  count : t.rb.count = s.rb.count

theorem SameRing.of_rb {s t : State} (hcfg : t.cfg = s.cfg) (hrb : t.rb = s.rb) : SameRing s t :=
  ⟨hcfg, by rw [hrb], by rw [hrb], by rw [hrb]⟩

theorem SameRing.of_onlyContext {s t : State} {r : Nat} (h : OnlyContext r s t) : SameRing s t :=
  ⟨h.env.1, h.slots, h.wcur, h.count⟩

/-- Only `RESET` and `PUSH` write the slots, the cursor or the count. -/
theorem Effect.ring_cases {s t : State} {i : Instr} (h : Effect s i t) :
    (i = .reset ∧ t = s.cleared) ∨ (∃ x, i = .push x ∧ t = s.pushed x) ∨ SameRing s t := by
  cases h with
  | takes _ _ ht =>
    obtain ⟨hrb, hcfg, _⟩ := doClass_env ht
    exact .inr (.inr (.of_rb hcfg hrb))
  | clears => exact .inl ⟨rfl, rfl⟩
  | pushes x => exact .inr (.inl ⟨x, rfl, rfl⟩)
  | requests | beats | waits | reads | idles | tells | answers => exact .inr (.inr ⟨rfl, rfl, rfl, rfl⟩)

theorem Effect.cfg_eq {s t : State} {i : Instr} (h : Effect s i t) : t.cfg = s.cfg := by
  obtain ⟨_, rfl⟩ | ⟨_, _, rfl⟩ | hsame := h.ring_cases
  · rfl
  · rfl
  · exact hsame.cfg

/-- Settles O30: `PUSH` saturates the count, and every other operation but `RESET` leaves it. -/
theorem countSaturatesAndIsNeverLowered : Obligations.CountSaturatesAndIsNeverLowered := by
  intro i s t h hcap hreset
  obtain ⟨rfl, _⟩ | ⟨x, rfl, rfl⟩ | hsame := (exec_effect h).ring_cases
  · exact absurd rfl hreset
  · refine ⟨Nat.min_le_right .., ?_, fun hpush => absurd rfl (hpush x)⟩
    rw [State.pushed_count]
    omega
  · rw [hsame.cfg, hsame.count]
    exact ⟨hcap, le_rfl, fun _ => ⟨rfl, hsame.wcur, hsame.slots⟩⟩

/-- A state with the same units and words presented differs in no context. -/
theorem onlyContext_of_rb {s t : State} (r : Nat) (hdec : t.dec = s.dec) (hrb : t.rb = s.rb)
    (henv : t.cfg = s.cfg ∧ t.ports = s.ports ∧ t.fresh = s.fresh) : OnlyContext r s t where
  dec := hdec
  slots := by rw [hrb]
  wcur := by rw [hrb]
  count := by rw [hrb]
  others := fun q _ => by rw [State.ctx, hrb, State.ctx]
  width := by rw [hrb]
  env := henv

/-- Settles O35: an accepted request and a beat replace their own context, and nothing else of the block changes. -/
theorem readsWriteOnlyTheirOwnContext : Obligations.ReadsWriteOnlyTheirOwnContext := by
  intro s t r n h
  obtain hreq | hbeat := h
  · obtain ⟨_, ⟨_, rfl⟩ | ⟨_, rfl⟩⟩ := execLatestReq_next hreq
    · exact onlyContext_of_rb r rfl rfl ⟨rfl, rfl, rfl⟩
    · exact onlyContext_doRequest s r n
  · obtain ⟨_, ⟨_, hdo⟩ | ⟨_, rfl⟩⟩ := execLatestBeat_next hbeat
    · obtain ⟨x, _, rfl⟩ := doBeat_ok hdo
      exact onlyContext_beaten s r x
    · exact onlyContext_of_rb r rfl rfl ⟨rfl, rfl, rfl⟩

/-! ## The history of the ring (spec/41_ringbuffer.md R152) -/

section

variable {cfg : Config} {s t : State} {h : Nat → Sample} {p : Nat}

theorem HoldsHistory.sameRing (hist : HoldsHistory s.cfg s.rb h p) (hsame : SameRing s t) :
    HoldsHistory t.cfg t.rb h p where
  below := hsame.cfg ▸ hist.below
  cursor := hsame.wcur ▸ hist.cursor
  count := by rw [hsame.count, hsame.cfg, hist.count]
  slots := by rw [hsame.slots, hsame.cfg]; exact hist.slots

/-- A ring without samples, whose cursor has not moved, holds the empty history, which any function names. -/
theorem holdsHistory_empty {b : Rb} (hcursor : b.wcur = 0) (hcount : b.count = 0) (h : Nat → Sample) :
    HoldsHistory cfg b h 0 where
  below := Nat.two_pow_pos _
  cursor := hcursor
  count := by rw [hcount, Nat.zero_min]
  slots := fun k hk => absurd hk (Nat.not_lt_zero k)

/-- Two pushes fewer than `C` apart fall on different slots (R153). -/
theorem mod_cap_ne {k p cap : Nat} (hlt : k < p) (hgt : p < k + cap) : k % cap ≠ p % cap := by
  intro heq
  have hdvd : cap ∣ p - k := (Nat.modEq_iff_dvd' hlt.le).mp heq
  have hle : cap ≤ p - k := Nat.le_of_dvd (by omega) hdvd
  omega

/-- A push of the sample that `h` gives push `p` extends the history (R152). -/
theorem HoldsHistory.pushed {x : Sample} (hist : HoldsHistory s.cfg s.rb h p) (hp : p + 1 < 2 ^ s.cfg.wcurW)
    (hx : h p = x) : HoldsHistory s.cfg (s.pushed x).rb h (p + 1) where
  below := hp
  cursor := by rw [State.pushed_wcur, hist.cursor, Nat.mod_eq_of_lt hp]
  count := by rw [State.pushed_count, hist.count]; omega
  slots := by
    intro k hk hlow
    obtain hlt | rfl := Nat.lt_succ_iff_lt_or_eq.mp hk
    · have hne : k % s.cfg.cap ≠ s.rb.wcur % s.cfg.cap := hist.cursor ▸ mod_cap_ne hlt (by omega)
      rw [State.read_pushed_other x hne]
      exact hist.slots k hlt (by omega)
    · rw [← hist.cursor, State.read_pushed_same, hist.cursor, hx]

/-- What a history gives the pushes to come is free. -/
theorem HoldsHistory.congr {h' : Nat → Sample} {b : Rb} (hist : HoldsHistory cfg b h p) (heq : ∀ k, k < p → h' k = h k) :
    HoldsHistory cfg b h' p where
  below := hist.below
  cursor := hist.cursor
  count := hist.count
  slots := fun k hk hlow => by rw [heq k hk]; exact hist.slots k hk hlow

/-- The history `h` with `x` as push `p`. -/
def withPush (h : Nat → Sample) (p : Nat) (x : Sample) : Nat → Sample := fun k => if k = p then x else h k

theorem withPush_of_lt {k : Nat} (x : Sample) (hk : k < p) : withPush h p x k = h k := if_neg hk.ne

theorem HoldsHistory.pushed_withPush (hist : HoldsHistory s.cfg s.rb h p) (x : Sample) (hp : p + 1 < 2 ^ s.cfg.wcurW) :
    HoldsHistory s.cfg (s.pushed x).rb (withPush h p x) (p + 1) :=
  (hist.congr fun _ => withPush_of_lt x).pushed hp (if_pos rfl)

end

/-- Settles O37: `PUSH` extends the history, `RESET` empties it, and no other operation writes the ring. -/
theorem pushExtendsTheHistory : Obligations.PushExtendsTheHistory := by
  intro i s t h p hist hexec
  refine ⟨?push, ?reset, ?other⟩
  case push =>
    rintro x rfl hp
    obtain rfl := exec_push_next hexec
    exact hist.pushed_withPush x hp
  case reset =>
    rintro rfl h'
    cases hexec
    exact holdsHistory_empty rfl rfl h'
  case other =>
    intro hreset hpush
    obtain ⟨hi, _⟩ | ⟨x, hi, _⟩ | hsame := (exec_effect hexec).ring_cases
    · exact absurd hi hreset
    · exact absurd hi (hpush x)
    · exact hist.sameRing hsame

/-- Pushes in a row extend the history by their samples. -/
theorem HoldsHistory.runOps_pushes {s : State} {h : Nat → Sample} {p : Nat} {xs : List Sample}
    (hist : HoldsHistory s.cfg s.rb h p) (hp : p + xs.length < 2 ^ s.cfg.wcurW)
    (hxs : ∀ k x, xs[k]? = some x → h (p + k) = x) :
    ∃ t outs, runOps (xs.map .push) s = .next (t, outs) ∧ HoldsHistory s.cfg t.rb h (p + xs.length) := by
  induction xs generalizing s p with
  | nil => exact ⟨s, [], rfl, hist⟩
  | cons x xs ih =>
    rw [List.length_cons] at hp ⊢
    have hpushed := hist.pushed (by omega) (hxs 0 x rfl)
    obtain ⟨t, outs, hrun, ht⟩ := ih (s := s.pushed x) (p := p + 1) hpushed (by rw [State.pushed_cfg]; omega)
      fun k y hy => by rw [← hxs (k + 1) y hy, Nat.add_right_comm, Nat.add_assoc]
    exact ⟨t, _, runOps_cons (exec_push x s) hrun, by rwa [Nat.add_right_comm, Nat.add_assoc] at ht⟩

/-- Settles O36: from reset the pushes are the whole history. -/
theorem afterPushesTheRingHoldsTheLatest : Obligations.AfterPushesTheRingHoldsTheLatest := by
  intro cfg xs hlen
  have hempty : HoldsHistory cfg (State.resetOf cfg).rb (fun k => xs.getD k 0) 0 := holdsHistory_empty rfl rfl _
  obtain ⟨t, outs, hrun, hist⟩ := HoldsHistory.runOps_pushes (s := State.resetOf cfg) (xs := xs) hempty
    (by simpa using hlen) fun k x hx => by simp [hx]
  rw [Nat.zero_add] at hist
  refine ⟨t, outs, hrun, hist.cursor, hist.count, fun k hk hlow => ?_⟩
  rw [State.resetOf_cfg] at hist
  rw [hist.slots k hk hlow, List.getElem?_eq_getElem hk, List.getD_eq_getElem _ _ hk]

end Sys2Proof.Machine

namespace Sys2Proof.Machine

/-! ## What a word still presents (spec/30_encoding.md R103) -/

/-- A word of the idle row presents nothing after it. -/
theorem rest_of_decode_idle {w : PortWord} (h : decode w = .idle) : w.rest = [] := by
  obtain h3 | ⟨h3, h2⟩ | ⟨h3, h2, h0⟩ | ⟨h3, h2, h0, h1⟩ | hzero := ctl_cases w.ctl
  · rw [(decode_of_rst h3).1] at h; cases h
  · rw [decode_of_submit h3 h2] at h; cases h
  · rw [decode_of_request h3 h2 h0] at h; cases h
  · rw [decode_of_push h3 h2 h0 h1] at h; cases h
  · exact rest_of_last (by simp [hzero]) (by simp [hzero])

/-- What a word still presents after its own operation never has `in_valid`. -/
theorem in_valid_of_mem_rest {w v : PortWord} (hv : v ∈ w.rest) : v.ctl.getLsbD 2 = false := by
  obtain ⟨_, rfl⟩ | rfl := mem_rest_cases hv
  · simp
  · simp

/-- A word's operations are its own and those of what it still presents. -/
theorem ops_eq_cons (w : PortWord) : PortWord.ops w = decode w :: w.rest.flatMap PortWord.ops := by
  rw [PortWord.ops]
  congr 1
  exact List.flatMap_congr fun v hv => (ops_of_low (in_valid_of_mem_rest hv)).symm

/-- The words `v` and `w` carry the same operands; they differ in the strobes at most. -/
def SameOperands (v w : PortWord) : Prop := v.ctx = w.ctx ∧ v.pushSample = w.pushSample ∧ v.rdN = w.rdN

theorem sameOperands_of_mem_rest {w v : PortWord} (hv : v ∈ w.rest) : SameOperands v w := by
  obtain ⟨_, rfl⟩ | rfl := mem_rest_cases hv <;> exact ⟨rfl, rfl, rfl⟩

/-! ## The operations of one agent (spec/20_memory.md R71) -/

/-- The operations of agent `a` among `is`, in their order. -/
def own (a : Agent) (is : List Instr) : List Instr := is.filter fun i => agentOf i == some a

section

variable {a : Agent} {i : Instr} {is js : List Instr}

theorem own_append : own a (is ++ js) = own a is ++ own a js := List.filter_append ..

theorem own_cons_of_agent (h : agentOf i = some a) : own a (i :: is) = i :: own a is := by simp [own, h]

theorem own_cons_of_ne (h : agentOf i ≠ some a) : own a (i :: is) = own a is := by simp [own, h]

theorem own_eq_nil (h : ∀ i ∈ is, agentOf i ≠ some a) : own a is = [] := by simpa [own] using h

end

/-- What is issued is what is pending, and then what is presented. -/
theorem issued_eq (s : State) (a : Agent) : s.issued a = own a s.queue ++ own a (s.ports.flatMap PortWord.ops) :=
  own_append

/-- The operations of the first word are issued before those of the others. -/
theorem own_ports_cons (a : Agent) (w : PortWord) (ws : List PortWord) :
    own a ((w :: ws).flatMap PortWord.ops) = own a [decode w] ++ own a ((w.rest ++ ws).flatMap PortWord.ops) := by
  rw [List.flatMap_cons, ops_eq_cons, List.flatMap_append, ← own_append]
  simp

/-! ## What a turn takes from the pending and the presented operations -/

/-- Operation `j` is taken from the pending operations `is`, and leaves `others`: the first of its agent's. -/
structure Picks (is : List Instr) (j : Instr) (others : List Instr) : Prop where
  mine : ∀ a, agentOf j = some a → own a is = j :: own a others
  foreign : ∀ a, agentOf j ≠ some a → own a is = own a others
  subset : ∀ k, k = j ∨ k ∈ others → k ∈ is

theorem picks_head (i : Instr) (is : List Instr) : Picks (i :: is) i is where
  mine := fun _ h => own_cons_of_agent h
  foreign := fun _ h => own_cons_of_ne h
  subset := fun _ h => List.mem_cons.mpr h

theorem picks_takeFirst {a : Agent} {is others : List Instr} {j : Instr} (h : takeFirst a is = some (j, others)) :
    Picks is j others := by
  obtain ⟨hj, hmine, hforeign, hsubset⟩ := takeFirst_some h
  refine ⟨fun b hb => ?_, fun b hb => ?_, hsubset⟩
  · obtain rfl : b = a := Option.some.inj (hb.symm.trans hj)
    exact hmine
  · exact hforeign b fun hba => hb (hba ▸ hj)

theorem Picks.append {is others : List Instr} {j : Instr} (h : Picks is j others) (js : List Instr) :
    Picks (is ++ js) j (others ++ js) where
  mine := fun a ha => by rw [own_append, own_append, h.mine a ha, List.cons_append]
  foreign := fun a ha => by rw [own_append, own_append, h.foreign a ha]
  subset := fun k hk => by
    rw [List.mem_append] at hk ⊢
    obtain hk | hk | hk := hk
    · exact .inl (h.subset k (.inl hk))
    · exact .inl (h.subset k (.inr hk))
    · exact .inr hk

/-- The block of `t` and its configuration are those of `s`, and as many free values are used. -/
structure SameBlock (s t : State) : Prop where
  cfg : t.cfg = s.cfg
  dec : t.dec = s.dec
  rb : t.rb = s.rb
  fresh : t.fresh = s.fresh

/-- Operation `i`, performed in `t`, has the turn in `s`: the block is the same, `i` is the first operation its agent has
issued, and no other agent's operations are touched. -/
structure Turn (s : State) (i : Instr) (t : State) : Prop where
  block : SameBlock s t
  mine : ∀ a, agentOf i = some a → s.issued a = i :: t.issued a
  foreign : ∀ a, agentOf i ≠ some a → t.issued a = s.issued a
  /-- An operation that has the turn and must wait is the only one of its agent. -/
  waits : ∀ r, needsFree i = some r → (t.ctx r).busy = true → ∀ j ∈ t.queue, agentOf j ≠ agentOf i
  origin : i ∈ s.queue ∨ i ∈ s.ports.flatMap PortWord.ops ∨ i = .idle ∨ ∃ r, i = .latestBeat r ∧ (s.ctx r).busy = true
  queue : ∀ j ∈ t.queue, j ∈ s.queue ∨ j ∈ s.ports.flatMap PortWord.ops
  ports : ∀ v ∈ t.ports, ∃ w ∈ s.ports, SameOperands v w

/-- The beat of a busy context leaves what is issued as it is. -/
theorem turn_beat {s : State} {r : Nat} (hbusy : (s.ctx r).busy = true) : Turn s (.latestBeat r) s where
  block := ⟨rfl, rfl, rfl, rfl⟩
  mine := fun _ h => by cases h
  foreign := fun _ _ => rfl
  waits := fun _ h => by cases h
  origin := .inr (.inr (.inr ⟨r, rfl, hbusy⟩))
  queue := fun _ => .inl
  ports := fun v hv => ⟨v, hv, rfl, rfl, rfl⟩

theorem turn_idle (s : State) : Turn s .idle s where
  block := ⟨rfl, rfl, rfl, rfl⟩
  mine := fun _ h => by cases h
  foreign := fun _ _ => rfl
  waits := fun _ h => by cases h
  origin := .inr (.inr (.inl rfl))
  queue := fun _ => .inl
  ports := fun v hv => ⟨v, hv, rfl, rfl, rfl⟩

/-- A pending operation has the turn, or the beat of the context it waits for. -/
theorem turn_pendingTurn {s : State} {j : Instr} {others : List Instr} (h : Picks s.queue j others) :
    Turn s (pendingTurn j others s).1 (pendingTurn j others s).2 := by
  by_cases hfree : ∀ r, needsFree j = some r → (s.ctx r).busy = false
  · rw [pendingTurn_of_free others hfree]
    refine { block := ⟨rfl, rfl, rfl, rfl⟩, mine := fun a ha => ?mine, foreign := fun a ha => ?foreign, waits := ?waits
             origin := .inl (h.subset j (.inl rfl)), queue := fun k hk => .inl (h.subset k (.inr hk))
             ports := fun v hv => ⟨v, hv, rfl, rfl, rfl⟩ }
    case mine => rw [issued_eq, issued_eq, h.mine a ha, List.cons_append]
    case foreign => rw [issued_eq, issued_eq, h.foreign a ha]
    case waits =>
      intro r hr hbusy
      rw [show ({ s with queue := others } : State).ctx r = s.ctx r from rfl, hfree r hr] at hbusy
      cases hbusy
  · push Not at hfree
    obtain ⟨r, hr, hbusy⟩ := hfree
    rw [pendingTurn_of_wait others hr (by simpa using hbusy)]
    exact turn_beat (by simpa using hbusy)


/-- With no strobe presented the turn is taken from what is pending. -/
theorem turn_quietTurn (s : State) : Turn s (quietTurn s).1 (quietTurn s).2 := by
  cases hq : s.queue with
  | cons i is =>
    rw [quietTurn_of_queue hq]
    exact turn_pendingTurn (hq ▸ picks_head i is)
  | nil =>
    cases hb : firstBusy s.rb.rd with
    | none =>
      rw [quietTurn_of_idle hq hb]
      exact turn_idle s
    | some r =>
      rw [quietTurn_of_busy hq hb]
      obtain ⟨hr, hbusy⟩ := firstBusy_some hb
      exact turn_beat (by rwa [State.ctx, List.getD_eq_getElem _ _ hr])

theorem agentOf_of_needsFree {i : Instr} {r : Nat} (h : needsFree i = some r) : agentOf i = some (.reader r) := by
  cases i with
  | latestReq | latest => cases h; rfl
  | getLatestBatch =>
    rw [needsFree] at h
    split at h
    · cases h
    · cases h; rfl
  | _ => cases h

section

variable {s : State} {w : PortWord} {ws : List PortWord}

/-- The state in which the first word has been taken from the ports, and `q` is pending. -/
def State.taken (s : State) (w : PortWord) (ws : List PortWord) (q : List Instr) : State :=
  { s with ports := w.rest ++ ws, queue := q }

theorem sameOperands_of_mem_taken (hports : s.ports = w :: ws) {v : PortWord} (hv : v ∈ w.rest ++ ws) :
    ∃ u ∈ s.ports, SameOperands v u := by
  rw [hports]
  obtain hv | hv := List.mem_append.mp hv
  · exact ⟨w, List.mem_cons_self, sameOperands_of_mem_rest hv⟩
  · exact ⟨v, List.mem_cons_of_mem _ hv, rfl, rfl, rfl⟩

theorem mem_ops_of_mem_taken (hports : s.ports = w :: ws) {j : Instr} (hj : j ∈ (w.rest ++ ws).flatMap PortWord.ops) :
    j ∈ s.ports.flatMap PortWord.ops := by
  rw [hports, List.flatMap_cons, ops_eq_cons]
  rw [List.flatMap_append] at hj
  exact List.mem_cons_of_mem _ hj

theorem decode_mem_ops (hports : s.ports = w :: ws) : decode w ∈ s.ports.flatMap PortWord.ops := by
  rw [hports, List.flatMap_cons, ops_eq_cons]
  exact List.mem_cons_self

/-- What is issued, the first word's operation written out. -/
theorem issued_of_ports (hports : s.ports = w :: ws) (a : Agent) :
    s.issued a = own a s.queue ++ (own a [decode w] ++ own a ((w.rest ++ ws).flatMap PortWord.ops)) := by
  rw [issued_eq, hports, own_ports_cons]

/-- A presented operation whose agent has nothing pending has the turn. -/
theorem turn_decode (hports : s.ports = w :: ws)
    (hq : ∀ a, agentOf (decode w) = some a → ∀ j ∈ s.queue, agentOf j ≠ some a) :
    Turn s (decode w) (s.taken w ws s.queue) where
  block := ⟨rfl, rfl, rfl, rfl⟩
  mine := fun a ha => by
    have hnil : own a s.queue = [] := own_eq_nil (hq a ha)
    rw [issued_of_ports hports, issued_eq, State.taken, hnil, own_cons_of_agent ha]
    rfl
  foreign := fun a ha => by
    rw [issued_of_ports hports, issued_eq, State.taken, own_cons_of_ne ha]
    rfl
  waits := fun r hr _ j hj => by
    rw [agentOf_of_needsFree hr]
    exact hq _ (agentOf_of_needsFree hr) j hj
  origin := .inr (.inl (decode_mem_ops hports))
  queue := fun _ => .inl
  ports := fun _ => sameOperands_of_mem_taken hports

/-- The turn of a state that has taken the word, with its operation pending or of no agent, is a turn of `s`. -/
theorem Turn.of_taken {i : Instr} {t : State} {q : List Instr} (hports : s.ports = w :: ws)
    (h : Turn (s.taken w ws q) i t) (hissued : ∀ a, (s.taken w ws q).issued a = s.issued a)
    (hq : ∀ j ∈ q, j ∈ s.queue ∨ j = decode w) : Turn s i t := by
  have hpending : ∀ j ∈ q, j ∈ s.queue ∨ j ∈ s.ports.flatMap PortWord.ops := fun j hj =>
    (hq j hj).imp_right (by rintro rfl; exact decode_mem_ops hports)
  refine { block := ⟨h.block.cfg, h.block.dec, h.block.rb, h.block.fresh⟩, mine := fun a ha => ?mine
           foreign := fun a ha => ?foreign, waits := h.waits, origin := ?origin, queue := ?queue, ports := ?ports }
  case mine => rw [← hissued, h.mine a ha]
  case foreign => rw [h.foreign a ha, hissued]
  case origin =>
    obtain hi | hi | hi := h.origin
    · exact or_assoc.mp (.inl (hpending i hi))
    · exact .inr (.inl (mem_ops_of_mem_taken hports hi))
    · exact .inr (.inr hi)
  case queue =>
    intro j hj
    obtain hj | hj := h.queue j hj
    · exact hpending j hj
    · exact .inr (mem_ops_of_mem_taken hports hj)
  case ports =>
    intro v hv
    obtain ⟨u, hu, hvu⟩ := h.ports v hv
    obtain ⟨x, hx, hux⟩ := sameOperands_of_mem_taken hports hu
    exact ⟨x, hx, hvu.1.trans hux.1, hvu.2.1.trans hux.2.1, hvu.2.2.trans hux.2.2⟩

/-- A word of the idle row issues nothing. -/
theorem issued_taken_of_idle (hports : s.ports = w :: ws) (hidle : decode w = .idle) (a : Agent) :
    (s.taken w ws s.queue).issued a = s.issued a := by
  rw [issued_of_ports hports, issued_eq, hidle]
  rfl

/-- A presented operation that joins the pending ones is still issued after those of its agent. -/
theorem issued_taken_of_later (hports : s.ports = w :: ws) (a : Agent) :
    (s.taken w ws (s.queue ++ [decode w])).issued a = s.issued a := by
  rw [issued_of_ports hports, issued_eq, ← List.append_assoc]
  exact congrArg (· ++ _) own_append

end

/-- Every step performs an operation that has the turn. -/
theorem turn_fetch (s : State) : Turn s (fetch s).1 (fetch s).2 := by
  cases hports : s.ports with
  | nil =>
    rw [fetch_of_nil hports]
    exact turn_quietTurn s
  | cons w ws =>
    by_cases hidle : decode w = .idle
    · rw [fetch_of_idle hports hidle]
      exact (turn_quietTurn (s.taken w ws s.queue)).of_taken hports (issued_taken_of_idle hports hidle) fun _ => .inl
    rw [fetch_of_ports hports hidle]
    cases hagent : agentOf (decode w) with
    | none =>
      rw [presentedTurn_of_none hagent]
      exact turn_decode hports fun a ha => by rw [hagent] at ha; cases ha
    | some a =>
      cases hfirst : takeFirst a s.queue with
      | none =>
        have hq := takeFirst_none.mp hfirst
        rw [presentedTurn_of_first (s := { s with ports := w.rest ++ ws }) hagent hq]
        exact turn_decode hports fun b hb => by
          obtain rfl := Option.some.inj (hagent.symm.trans hb)
          exact hq
      | some picked =>
        obtain ⟨j, others⟩ := picked
        rw [presentedTurn_of_later (s := { s with ports := w.rest ++ ws }) hagent hfirst]
        have hpicks := (picks_takeFirst hfirst).append [decode w]
        refine (turn_pendingTurn (s := s.taken w ws (s.queue ++ [decode w])) hpicks).of_taken hports
          (issued_taken_of_later hports) fun k hk => ?_
        simpa using hk

/-! ## The order of each agent's operations (spec/20_memory.md R71) -/

theorem own_submits (bytes : List Byte) : own .byteSource (submits bytes) = submits bytes := by
  simp [own, submits, agentOf]

theorem own_submits_of_ne {a : Agent} (bytes : List Byte) (ha : a ≠ .byteSource) : own a (submits bytes) = [] :=
  own_eq_nil fun i hi => by
    obtain ⟨b, _, rfl⟩ := List.mem_map.mp hi
    exact fun h => ha (Option.some.inj h).symm

theorem own_replicate_beats (a : Agent) (k r : Nat) : own a (List.replicate k (.latestBeat r)) = [] :=
  own_eq_nil fun i hi => by
    rw [List.eq_of_mem_replicate hi]
    exact nofun

section

variable {s t : State} {i : Instr} {a : Agent}

theorem issued_wait (h : ∀ j ∈ s.queue, agentOf j ≠ some a) (hi : agentOf i = some a) :
    (s.wait i).issued a = i :: s.issued a := by
  rw [issued_eq, issued_eq, State.wait_queue, own_append, own_eq_nil h, own_cons_of_agent hi]
  rfl

theorem issued_wait_of_ne (hi : agentOf i ≠ some a) : (s.wait i).issued a = s.issued a := by
  rw [issued_eq, issued_eq, State.wait_queue, own_append, own_cons_of_ne hi]
  simp [own]

theorem issued_told (s : State) (bytes : List Byte) (n : Nat) :
    (s.told bytes n).issued .byteSource = submits (s.messageBytes bytes n) ++ s.issued .byteSource := by
  rw [issued_eq, issued_eq, State.told_queue, own_append, own_submits, List.append_assoc]
  rfl

theorem issued_told_of_ne (s : State) (bytes : List Byte) (n : Nat) (ha : a ≠ .byteSource) :
    (s.told bytes n).issued a = s.issued a := by
  rw [issued_eq, issued_eq, State.told_queue, own_append, own_submits_of_ne _ ha]
  rfl

theorem issued_startRead (s : State) (r n : Nat) (a : Agent) : (startRead r n s).issued a = s.issued a := by
  rw [issued_eq, issued_eq, startRead, State.owe_queue, own_append, own_replicate_beats]
  rfl

theorem ofClass_ne_processMessage {c : ByteClass} {b : Byte} {bytes : List Byte} {n : Nat} :
    ofClass c b ≠ .processMessage bytes n := by
  cases c <;> exact nofun

/-- Only a waiting operation and a `processMessage` issue anything in being performed. -/
theorem Effect.issued_cases (h : Effect s i t) :
    (∃ r, needsFree i = some r ∧ (s.ctx r).busy = true ∧ t = s.wait i) ∨
      (∃ bytes n, i = .processMessage bytes n ∧ t = s.told bytes n) ∨
      ((∀ bytes n, i ≠ .processMessage bytes n) ∧ ∀ a, t.issued a = s.issued a) := by
  cases h with
  | takes hi _ ht =>
    obtain ⟨_, _, hports, hqueue, _⟩ := doClass_env ht
    refine .inr (.inr ⟨?_, fun a => by rw [issued_eq, issued_eq, hports, hqueue]⟩)
    rintro bytes n rfl
    obtain hi | hi := hi
    · cases hi
    · exact ofClass_ne_processMessage hi.symm
  | waits hi hbusy => exact .inl ⟨_, hi, hbusy, rfl⟩
  | tells bytes n => exact .inr (.inl ⟨bytes, n, rfl, rfl⟩)
  | reads hi => exact .inr (.inr ⟨by rintro _ _ rfl; simp at hi, issued_startRead s _ _⟩)
  | idles hi | answers hi => exact .inr (.inr ⟨by rintro _ _ rfl; simp at hi, fun _ => rfl⟩)
  | clears | pushes | requests | beats => exact .inr (.inr ⟨nofun, fun _ => rfl⟩)

end

/-- Settles O51: the operation that has the turn is the first its agent has issued; performing it issues nothing, unless it
waits, which leaves it where it was, or is a `processMessage`, whose `SUBMIT`s come first. -/
theorem eachAgentsOperationsKeepTheirOrder : Obligations.EachAgentsOperationsKeepTheirOrder := by
  intro s t a hstep
  have hturn := turn_fetch s
  have hexec : exec (fetch s).1 (fetch s).2 = .next t := hstep
  generalize (fetch s).1 = i at hturn hexec
  generalize (fetch s).2 = u at hturn hexec
  by_cases hi : agentOf i = some a
  · obtain ⟨r, hr, hbusy, rfl⟩ | ⟨bytes, n, rfl, rfl⟩ | ⟨hmessage, hissued⟩ := (exec_effect hexec).issued_cases
    · left
      rw [issued_wait (hi ▸ hturn.waits r hr hbusy) hi, hturn.mine a hi]
    · right
      cases hi
      refine ⟨_, _, hturn.mine _ rfl, ?_, fun h => absurd rfl (h bytes n)⟩
      rintro _ _ ⟨⟩
      rw [issued_told, State.messageBytes, State.messageBytes, hturn.block.fresh]
    · right
      exact ⟨i, _, hturn.mine a hi, fun bytes n h => absurd h (hmessage bytes n), fun _ => hissued a⟩
  · left
    rw [← hturn.foreign a hi]
    obtain ⟨_, _, _, rfl⟩ | ⟨bytes, n, rfl, rfl⟩ | ⟨_, hissued⟩ := (exec_effect hexec).issued_cases
    · exact issued_wait_of_ne hi
    · exact issued_told_of_ne u bytes n fun ha => hi (ha ▸ rfl)
    · exact hissued a

/-! ## Which operation a step performs (spec/30_encoding.md R103, 20_memory.md R71) -/

/-- Settles O49: the presented operation has its turn when its agent has nothing pending. -/
theorem stepRunsThePresentedOperation : Obligations.StepRunsThePresentedOperation := by
  intro s w ws hports hidle hq
  refine step_of_fetch ?_
  rw [fetch_of_ports hports hidle]
  cases hagent : agentOf (decode w) with
  | none => exact presentedTurn_of_none hagent
  | some a => exact presentedTurn_of_first hagent (hq a hagent)

/-- The first of an agent's operations, where none stands before it. -/
theorem takeFirst_append {a : Agent} {before after : List Instr} {j : Instr} (hj : agentOf j = some a)
    (hbefore : ∀ i ∈ before, agentOf i ≠ some a) : takeFirst a (before ++ j :: after) = some (j, before ++ after) := by
  induction before with
  | nil => simp [takeFirst, hj]
  | cons i before ih =>
    obtain ⟨hi, hrest⟩ := List.forall_mem_cons.mp hbefore
    simp [takeFirst, hi, ih hrest]

/-- Settles O50: the presented operation joins the pending ones, of which `j` is the first of its agent's. -/
theorem anEarlierOperationGoesFirst : Obligations.AnEarlierOperationGoesFirst := by
  intro s w ws a before after j hports hagent hqueue hj hbefore
  have hidle : decode w ≠ .idle := by
    intro h
    rw [h] at hagent
    cases hagent
  have hfirst : takeFirst a s.queue = some (j, before ++ after) := hqueue ▸ takeFirst_append hj hbefore
  have hfetch : fetch s = pendingTurn j (before ++ after ++ [decode w]) (s.taken w ws (s.queue ++ [decode w])) :=
    (fetch_of_ports hports hidle).trans
      (presentedTurn_of_later (s := { s with ports := w.rest ++ ws }) hagent hfirst)
  refine ⟨fun hfree => ?free, fun r hr hbusy => ?wait⟩
  case free => exact step_of_fetch (hfetch.trans (pendingTurn_of_free _ hfree))
  case wait => exact step_of_fetch (hfetch.trans (pendingTurn_of_wait _ hr hbusy))

/-- Settles O52: the turn is the quiet one of what is left when an idle word is consumed. -/
theorem quietStepRunsWhatIsPending : Obligations.QuietStepRunsWhatIsPending := by
  intro s q hquiet
  obtain ⟨hqueue, hrb, hfetch⟩ : q.queue = s.queue ∧ q.rb = s.rb ∧ fetch s = quietTurn q := by
    obtain ⟨hports, rfl⟩ | ⟨w, ws, hports, hidle, rfl⟩ := hquiet
    · exact ⟨rfl, rfl, fetch_of_nil hports⟩
    · exact ⟨rfl, rfl, by rw [fetch_of_idle hports hidle, rest_of_decode_idle hidle, List.nil_append]⟩
  have hctx : ∀ r, q.ctx r = s.ctx r := fun r => by rw [State.ctx, hrb, State.ctx]
  rw [← hqueue, ← hrb]
  simp only [← hctx]
  refine ⟨fun i is hq hfree => ?free, fun i is r hq hr hbusy => ?wait, fun r hq hbusy => ?beat, fun hq hfree => ?idle⟩
  case free => exact step_of_fetch (by rw [hfetch, quietTurn_of_queue hq, pendingTurn_of_free is hfree])
  case wait => exact step_of_fetch (by rw [hfetch, quietTurn_of_queue hq, pendingTurn_of_wait is hr hbusy])
  case beat => exact step_of_fetch (by rw [hfetch, quietTurn_of_busy hq hbusy])
  case idle => exact step_of_fetch (by rw [hfetch, quietTurn_of_idle hq (firstBusy_none.mpr hfree)])

/-! ## What every step keeps (spec/10_state.md R41, 41_ringbuffer.md R152) -/

/-- Settles O54: neither the turn nor the operation performed writes the configuration. -/
theorem theConfigurationNeverChanges : Obligations.TheConfigurationNeverChanges := by
  intro s t hstep
  have heffect : Effect (fetch s).2 (fetch s).1 t := exec_effect hstep
  rw [heffect.cfg_eq, (turn_fetch s).block.cfg]

/-- Settles O38: the operation that has the turn is performed on the same ring, and O37 says what it does to the history. -/
theorem everyStepKeepsTheHistory : Obligations.EveryStepKeepsTheHistory := by
  intro s t h p hist hp hstep
  obtain ⟨hcfg, _, hrb, _⟩ := (turn_fetch s).block
  have hexec : exec (fetch s).1 (fetch s).2 = .next t := hstep
  rw [← hcfg, ← hrb] at hist
  rw [← hcfg] at hp
  obtain ⟨hpush, hreset, hother⟩ := pushExtendsTheHistory _ _ _ h p hist hexec
  by_cases hr : (fetch s).1 = .reset
  · exact ⟨h, 0, hreset hr h, .inl ⟨hr, rfl⟩⟩
  by_cases hx : ∃ x, (fetch s).1 = .push x
  · obtain ⟨x, hx⟩ := hx
    exact ⟨withPush h p x, p + 1, hpush x hx hp, .inr (.inl ⟨x, hx, rfl, if_pos rfl, fun k => withPush_of_lt x⟩)⟩
  · have hnone : ∀ x, (fetch s).1 ≠ .push x := fun x hx' => hx ⟨x, hx'⟩
    exact ⟨h, p, hother hr hnone, .inr (.inr ⟨hr, hnone, rfl, fun _ _ => rfl⟩)⟩

end Sys2Proof.Machine

namespace Sys2Proof.Machine

/-! ## The bytes of the frame in flight (spec/10_state.md R22, R23, R25) -/

section

variable {α : Type} {m : List (Nat × α)}

/-- A range that reads holds its values one by one. -/
theorem Memory.getElem?_of_readRange {a n : Nat} {vs : List α} (h : Memory.readRange m a n = .ok vs) :
    vs.length = n ∧ ∀ k, k < n → vs[k]? = Memory.read m (a + k) := by
  induction n generalizing a vs with
  | zero =>
    cases h
    exact ⟨rfl, fun k hk => absurd hk (Nat.not_lt_zero k)⟩
  | succ n ih =>
    rw [Memory.readRange] at h
    split at h
    · cases h
    · rename_i v hv
      split at h
      · cases h
      · rename_i us hus
        cases h
        obtain ⟨hlen, hread⟩ := ih hus
        refine ⟨by rw [List.length_cons, hlen], fun k hk => ?_⟩
        cases k with
        | zero => exact hv.symm
        | succ k =>
          rw [List.getElem?_cons_succ, hread k (by omega)]
          congr 1
          omega

/-- Stored bytes are a list that the memory holds. -/
theorem Memory.exists_holds {n : Nat} (h : ∀ k, k < n → (Memory.read m k).isSome = true) :
    ∃ p : List α, p.length = n ∧ Memory.Holds m p := by
  obtain ⟨p, hp, hlen⟩ := Memory.readRange_of_stored m 0 n fun k _ hk => h k (by omega)
  refine ⟨p, hlen, fun k v hv => ?_⟩
  have hk : k < n := hlen ▸ (List.getElem?_eq_some_iff.mp hv).1
  rw [← hv, (Memory.getElem?_of_readRange hp).2 k hk, Nat.zero_add]

/-- What a memory holds reads from `a` on, up to any length. -/
theorem Memory.Holds.readRange_drop {p q : List α} (h : Memory.Holds m p) (hq : q <+: p) (a : Nat) :
    Memory.readRange m a (q.length - a) = .ok (q.drop a) := by
  obtain ⟨post, rfl⟩ := hq
  by_cases ha : a ≤ q.length
  · have hsplit : Memory.Holds m (q.take a ++ q.drop a ++ post) := by rwa [List.take_append_drop]
    simpa [ha] using hsplit.readRange
  · rw [List.drop_eq_nil_of_le (by omega), Nat.sub_eq_zero_of_le (by omega)]
    rfl

end

theorem lenNat_of_read {d : Dec} {l : Byte} (h : Memory.read d.buf 1 = some l) : lenNat d = l.toNat := by
  rw [lenNat, h]

/-- `p` are the bytes of the frame in flight, and the decoder is where they put it: the invariant of DEC with the stored
bytes written out. -/
structure InFlight (cfg : Config) (d : Dec) (p : List Byte) : Prop where
  canonical : Memory.wf cfg.maxFrame d.buf = true
  length : p.length = d.cnt.toNat
  bound : p.length ≤ 7 + lenNat d
  holds : Memory.Holds d.buf p
  marker : ∀ b, p[0]? = some b → b = cfg.startMarker
  label : d.st = stateAt p.length (lenNat d)
  sum : 0 < p.length → d.ckAcc = coveredSum cfg (p.take (6 + lenNat d))
  drops : d.ckDropCnt < 2 ^ cfg.dropW

section

variable {cfg : Config} {d : Dec} {p : List Byte}

/-- The covered bytes of a frame in flight, read from its buffer. -/
theorem bufBytes_covered (hlen : p.length = d.cnt.toNat) (hp : Memory.Holds d.buf p) :
    bufBytes cfg d.buf cfg.ckFirst (min d.cnt.toNat (6 + lenNat d) - cfg.ckFirst) =
      .ok ((p.take (6 + lenNat d)).drop cfg.ckFirst) := by
  have hcovered := hp.readRange_drop (List.take_prefix (6 + lenNat d) p) cfg.ckFirst
  rw [List.length_take, hlen, min_comm] at hcovered
  exact bufBytes_ok.mpr hcovered

theorem DecInv.exists_inFlight (h : DecInv cfg d) : ∃ p, InFlight cfg d p := by
  obtain ⟨p, hlen, hp⟩ := Memory.exists_holds h.stored
  refine ⟨p, { canonical := h.canonical, length := hlen, bound := hlen ▸ h.bound, holds := hp, marker := ?marker
               label := hlen ▸ h.label, sum := ?sum, drops := h.drops }⟩
  case marker =>
    intro b hb
    have hpos : 0 < d.cnt.toNat := hlen ▸ (List.getElem?_eq_some_iff.mp hb).1
    exact Option.some.inj ((hp 0 b hb).symm.trans (h.marker hpos))
  case sum =>
    intro hpos
    obtain ⟨bytes, hbytes, hsum⟩ := h.sum (hlen ▸ hpos)
    rw [bufBytes_covered hlen hp] at hbytes
    cases hbytes
    exact hsum

theorem InFlight.decInv (h : InFlight cfg d p) : DecInv cfg d where
  canonical := h.canonical
  bound := h.length ▸ h.bound
  stored := fun k hk => by
    have hkp : k < p.length := h.length ▸ hk
    rw [h.holds k _ (List.getElem?_eq_getElem hkp)]
    rfl
  marker := fun hpos => by
    have hpp : 0 < p.length := h.length ▸ hpos
    have hfirst := List.getElem?_eq_getElem hpp
    rw [h.holds 0 _ hfirst, h.marker _ hfirst]
  label := h.length ▸ h.label
  sum := fun hpos => ⟨_, bufBytes_covered h.length h.holds, h.sum (h.length ▸ hpos)⟩
  drops := h.drops

/-- `LEN` is stored once the frame has two bytes. -/
theorem InFlight.read_len (h : InFlight cfg d p) (h2 : 2 ≤ p.length) :
    ∃ l, Memory.read d.buf 1 = some l ∧ p[1]? = some l ∧ lenNat d = l.toNat := by
  have hl : p[1]? = some p[1] := List.getElem?_eq_getElem h2
  exact ⟨_, h.holds 1 _ hl, hl, lenNat_of_read (h.holds 1 _ hl)⟩

theorem stateAt_of_trailer {k len : Nat} (h : 6 + len < k) (h6 : 6 < k) : stateAt k len = .gotChecksumByte1 := by
  obtain ⟨j, rfl⟩ := Nat.exists_eq_add_of_le' h6
  exact if_neg (Nat.not_le.mpr h)

/-- The class of a byte by `cnt` and `LEN` alone (R104). -/
def classAt (cfg : Config) (b : Byte) (k len : Nat) : ByteClass :=
  if k = 0 then (if b = cfg.startMarker then .start else .noise)
  else if k = 1 then .len
  else if k = 2 then .seq
  else if k = 3 then .sysid
  else if k = 4 then .compid
  else if k = 5 then .msgid
  else if k < 6 + len then .payload
  else if k = 6 + len then .ck1
  else .ck2

theorem classAt_of_payload {b : Byte} {k len : Nat} (h6 : 6 ≤ k) (h : k < 6 + len) : classAt cfg b k len = .payload := by
  unfold classAt
  iterate 6 rw [if_neg (by omega)]
  rw [if_pos h]

theorem classAt_of_ck1 {b : Byte} {k len : Nat} (h : k = 6 + len) : classAt cfg b k len = .ck1 := by
  unfold classAt
  iterate 7 rw [if_neg (by omega)]
  rw [if_pos h]

theorem classAt_of_ck2 {b : Byte} {k len : Nat} (h6 : 6 < k) (h : 6 + len < k) : classAt cfg b k len = .ck2 := by
  unfold classAt
  iterate 8 rw [if_neg (by omega)]

/-- R121 and the classification by the count agree. -/
theorem InFlight.classify (h : InFlight cfg d p) (b : Byte) :
    classify cfg d b = .ok (classAt cfg b p.length (lenNat d)) := by
  have hst := h.label
  match hk : p.length with
  | 0 =>
    rw [hk] at hst
    by_cases hb : b = cfg.startMarker
    · rw [classify_of_marker hst hb, classAt, if_pos rfl, if_pos hb]
    · rw [classify_of_noise hst hb, classAt, if_pos rfl, if_neg hb]
  | 1 => rw [hk] at hst; exact classify_of_gotStart b hst
  | 2 => rw [hk] at hst; exact classify_of_gotLength b hst
  | 3 => rw [hk] at hst; exact classify_of_gotSequence b hst
  | 4 => rw [hk] at hst; exact classify_of_gotSourceSystem b hst
  | 5 => rw [hk] at hst; exact classify_of_gotSourceComponent b hst
  | 6 =>
    rw [hk] at hst
    obtain ⟨l, hl, _, hlen⟩ := h.read_len (by omega)
    rw [classify_of_gotMessageId b hst hl, ← hlen]
    by_cases h0 : lenNat d = 0
    · rw [if_pos h0, classAt_of_ck1 (by omega)]
    · rw [if_neg h0, classAt_of_payload le_rfl (by omega)]
  | k + 7 =>
    obtain ⟨l, hl, _, hlen⟩ := h.read_len (by omega)
    by_cases hpay : k + 7 ≤ 6 + lenNat d
    · rw [hk, stateAt_of_payload (by omega) hpay] at hst
      rw [classify_of_accumulatingPayload b hst hl, ← hlen, ← h.length, hk]
      by_cases hfull : k + 7 = 6 + lenNat d
      · rw [if_pos hfull, classAt_of_ck1 hfull]
      · rw [if_neg hfull, classAt_of_payload (by omega) (by omega)]
    · rw [hk, stateAt_of_trailer (by omega) (by omega)] at hst
      rw [classify_of_gotChecksumByte1 b hst, classAt_of_ck2 (by omega) (by omega)]

end

/-- Settles O19: the invariant's label and R121's rows give the class of the count. -/
theorem classIsAFunctionOfTheCount : Obligations.ClassIsAFunctionOfTheCount := by
  intro cfg d b hd
  obtain ⟨p, hp⟩ := hd.exists_inFlight
  rw [hp.classify b, hp.length]
  rfl

/-! ## A byte joins the frame in flight (spec/40_decoder.md R122 to R130) -/

/-- The decoder after byte `b` went to `buf[cnt]`. -/
def Dec.took (d : Dec) (b : Byte) (acc : Half) (st : FsmState) : Dec :=
  { d with buf := Memory.write d.buf d.cnt.toNat b, cnt := d.cnt + 1, ckAcc := acc, st := st }

/-- `LEN` once `b` is stored at `buf[cnt]`: `b` itself where that is `buf[1]`. -/
def lenTaking (d : Dec) (b : Byte) : Nat := if d.cnt.toNat = 1 then b.toNat else lenNat d

theorem lenNat_took (d : Dec) (b : Byte) (acc : Half) (st : FsmState) : lenNat (d.took b acc st) = lenTaking d b := by
  unfold lenTaking
  split
  case isTrue h1 => exact lenNat_of_read (by rw [Dec.took, h1, Memory.read_write_same])
  case isFalse h1 =>
    rw [lenNat, lenNat, Dec.took, Memory.read_write_other _ b (Ne.symm h1)]

theorem lenTaking_lt (d : Dec) (b : Byte) : lenTaking d b < 256 := by
  unfold lenTaking
  split
  · exact b.isLt
  · exact lenNat_lt d

section

variable {cfg : Config} {d : Dec} {p : List Byte} {b : Byte}

/-- A byte within its frame, with the sum over the covered bytes so far and the state of the next count, joins the frame. -/
theorem InFlight.took {acc : Half} {st : FsmState} (h : InFlight cfg d p) (hmarker : p = [] → b = cfg.startMarker)
    (hle : p.length ≤ 6 + lenTaking d b) (hst : st = stateAt (p.length + 1) (lenTaking d b))
    (hacc : acc = coveredSum cfg ((p ++ [b]).take (6 + lenTaking d b))) : InFlight cfg (d.took b acc st) (p ++ [b]) := by
  have hlt := lenTaking_lt d b
  have hcnt : (d.cnt + 1).toNat = p.length + 1 := by
    have hlen := h.length
    bv_omega
  have hlen : (p ++ [b]).length = p.length + 1 := by rw [List.length_append, List.length_singleton]
  refine { canonical := ?canonical, length := by rw [hlen, Dec.took, hcnt], bound := ?bound, holds := ?holds
           marker := ?marker, label := ?label, sum := ?sum, drops := h.drops }
  case canonical => exact Memory.wf_write b h.canonical (by rw [← h.length, Config.maxFrame_eq]; omega)
  case bound => rw [hlen, lenNat_took]; omega
  case holds =>
    rw [Dec.took, ← h.length]
    exact h.holds.write b
  case marker =>
    intro v hv
    cases p with
    | nil => cases hv; exact hmarker rfl
    | cons u us => exact h.marker v hv
  case label => rw [lenNat_took, hlen]; exact hst
  case sum => intro _; rw [lenNat_took]; exact hacc

/-- The sum before the byte, from `CK_INIT` at the marker. -/
theorem InFlight.coveredSum_eq (h : InFlight cfg d p) (hle : p.length ≤ 6 + lenNat d) :
    (if p.length = 0 then cfg.ckInit else d.ckAcc) = coveredSum cfg p := by
  split
  case isTrue h0 =>
    rw [List.length_eq_zero_iff.mp h0, coveredSum, List.drop_nil]
    rfl
  case isFalse h0 => rw [h.sum (Nat.pos_of_ne_zero h0), List.take_of_length_le hle]

/-- A byte before the trailer, summed by its class, joins the frame (R122, R124 to R129). -/
theorem InFlight.tookSummed (h : InFlight cfg d p) (hmarker : p = [] → b = cfg.startMarker)
    (hle : p.length ≤ 6 + lenNat d) (hlt : p.length < 6 + lenTaking d b) :
    InFlight cfg (d.took b (ckAt cfg p.length (if p.length = 0 then cfg.ckInit else d.ckAcc) b)
      (stateAt (p.length + 1) (lenTaking d b))) (p ++ [b]) := by
  refine h.took hmarker hlt.le rfl ?_
  rw [h.coveredSum_eq hle, ckAt_coveredSum, List.take_of_length_le (by rw [List.length_append]; exact hlt)]

theorem lenTaking_of_ne (h : d.cnt.toNat ≠ 1) : lenTaking d b = lenNat d := if_neg h

/-- The first trailer byte, which is not summed, joins the frame (R130). -/
theorem InFlight.tookFirstTrailer (h : InFlight cfg d p) (hlen : p.length = 6 + lenNat d) (b : Byte) :
    InFlight cfg (d.took b d.ckAcc .gotChecksumByte1) (p ++ [b]) := by
  have hsame : lenTaking d b = lenNat d := lenTaking_of_ne (by rw [← h.length]; omega)
  refine h.took ?marker (by omega) ?state ?sum
  case marker => rintro rfl; simp at hlen; omega
  case state => rw [hsame, stateAt_of_trailer (by omega) (by omega)]
  case sum => rw [hsame, h.sum (by omega), ← hlen, List.take_left, List.take_length]

end

/-! ## The end of a frame (spec/40_decoder.md R131) -/

section

variable {cfg : Config} {d : Dec} {p : List Byte}

/-- A decoder between frames meets its invariant, whatever bytes earlier frames left (R131, R240). -/
theorem decInv_of_waiting (hm : Memory.wf cfg.maxFrame d.buf = true) (hst : d.st = .waitingForStart) (hcnt : d.cnt = 0)
    (hdrops : d.ckDropCnt < 2 ^ cfg.dropW) : DecInv cfg d := by
  have hzero : d.cnt.toNat = 0 := by rw [hcnt]; rfl
  exact { canonical := hm, bound := by omega, stored := fun k hk => by omega, marker := fun h => by omega
          label := by rw [hst, hzero]; rfl, sum := fun h => by omega, drops := hdrops }

theorem InFlight.lt_maxFrame (h : InFlight cfg d p) : d.cnt.toNat < 263 := by
  have hbound := h.bound
  have hlen := lenNat_lt d
  rw [← h.length]
  omega

theorem exists_six_cons {α : Type} {p : List α} (h : 6 ≤ p.length) :
    ∃ a b c d e f rest, p = a :: b :: c :: d :: e :: f :: rest := by
  match p with
  | a :: b :: c :: d :: e :: f :: rest => exact ⟨a, b, c, d, e, f, rest, rfl⟩
  | [] | [_] | [_, _] | [_, _, _] | [_, _, _, _] | [_, _, _, _, _] => simp at h

/-- The frame in flight before its last byte, field by field (R91). -/
theorem InFlight.exists_frameBody (h : InFlight cfg d p) (hlen : p.length = 7 + lenNat d) :
    ∃ seq sysid compid msgid payload c1, payload.length ≤ 255 ∧
      p = frameBody cfg seq sysid compid msgid payload ++ [c1] := by
  have hlt := lenNat_lt d
  obtain ⟨l, _, hl, hln⟩ := h.read_len (by omega)
  have hmarker := h.marker
  obtain ⟨m, l', seq, sysid, compid, msgid, rest, rfl⟩ := exists_six_cons (p := p) (by omega)
  obtain rfl : l' = l := Option.some.inj hl
  obtain rfl : m = cfg.startMarker := hmarker m rfl
  simp only [List.length_cons] at hlen
  obtain rfl | ⟨payload, c1, rfl⟩ := List.eq_nil_or_concat' rest
  · rw [List.length_nil] at hlen
    omega
  · rw [List.length_append, List.length_singleton] at hlen
    have hpayload : BitVec.ofNat 8 payload.length = l' := by
      rw [show payload.length = l'.toNat by omega, BitVec.ofNat_toNat, BitVec.setWidth_eq]
    exact ⟨seq, sysid, compid, msgid, payload, c1, by omega, by rw [frameBody, hpayload]; rfl⟩

/-- The first trailer byte stands below `cnt`. -/
theorem InFlight.read_pred_cnt {q : List Byte} {c1 : Byte} (h : InFlight cfg d (q ++ [c1])) :
    Memory.read d.buf (d.cnt - 1).toNat = some c1 := by
  have hlen := h.length
  have hlt := h.lt_maxFrame
  rw [List.length_append, List.length_singleton] at hlen
  have hprev : (d.cnt - 1).toNat = q.length := by bv_omega
  exact h.holds _ _ (by rw [hprev, List.getElem?_concat_length])

/-- The buffer once the last byte is stored. -/
theorem InFlight.holds_last (h : InFlight cfg d p) (b : Byte) :
    Memory.Holds (Memory.write d.buf d.cnt.toNat b) (p ++ [b]) := h.length ▸ h.holds.write b

end

/-- `CK2` completes on a frame in flight, and leaves a decoder between frames. -/
theorem InFlight.doCk2 {s : State} {p : List Byte} (h : InFlight s.cfg s.dec p) (hlen : p.length = 7 + lenNat s.dec)
    (b : Byte) : ∃ t, doCk2 b s = .ok t ∧ DecInv t.cfg t.dec := by
  obtain ⟨seq, sysid, compid, msgid, payload, c1, hpayload, rfl⟩ := h.exists_frameBody hlen
  have hstore := Memory.wf_write b h.canonical (by simpa using h.lt_maxFrame)
  cases hacc : ckAccepts s.cfg (rxCk s.cfg c1 b) s.dec.ckAcc with
  | false =>
    exact ⟨_, doCk2_of_rejected h.lt_maxFrame h.read_pred_cnt hacc,
      decInv_of_waiting hstore rfl rfl (Nat.mod_lt _ (Nat.two_pow_pos _))⟩
  | true =>
    have hrec := frameRecord_of_holds hpayload (by simpa using h.holds_last b)
    exact ⟨_, doCk2_of_accepted h.lt_maxFrame h.read_pred_cnt hacc hrec, decInv_of_waiting hstore rfl rfl h.drops⟩

/-! ## `SUBMIT` keeps the invariant (spec/10_state.md R27) -/

section

variable {s : State} {p : List Byte} {b : Byte}

/-- The classes before the trailer store at `cnt` and sum, as the count and `LEN` say. -/
theorem InFlight.doClass_summed {c : ByteClass} (h : InFlight s.cfg s.dec p) (hc : c = classAt s.cfg b p.length (lenNat s.dec))
    (hmarker : p = [] → b = s.cfg.startMarker) (hlt : p.length < 6 + lenNat s.dec ∨ p.length < 6) :
    doClass c b s = takeByte s.dec.cnt.toNat (s.dec.cnt + 1)
      (ckAt s.cfg p.length (if p.length = 0 then s.cfg.ckInit else s.dec.ckAcc) b)
      (stateAt (p.length + 1) (lenTaking s.dec b)) b s := by
  have hlen := h.length
  have hcnt : ∀ k, k < 512 → p.length = k → s.dec.cnt = BitVec.ofNat 9 k := fun k hk hpk =>
    BitVec.eq_of_toNat_eq (by rw [BitVec.toNat_ofNat, Nat.mod_eq_of_lt hk, ← hlen, hpk])
  subst hc
  match hk : p.length with
  | 0 =>
    rw [classAt, if_pos rfl, if_pos (hmarker (List.length_eq_zero_iff.mp hk)), hcnt 0 (by decide) hk]
    rfl
  | 1 => rw [hcnt 1 (by decide) hk]; rfl
  | 2 => rw [hcnt 2 (by decide) hk]; rfl
  | 3 => rw [hcnt 3 (by decide) hk]; rfl
  | 4 => rw [hcnt 4 (by decide) hk]; rfl
  | 5 => rw [hcnt 5 (by decide) hk]; rfl
  | k + 6 =>
    have hpay : k + 6 < 6 + lenNat s.dec := by omega
    rw [classAt_of_payload (by omega) hpay, lenTaking_of_ne (by omega), stateAt_of_payload (by omega) hpay,
      if_neg (by omega), show k + 6 = s.dec.cnt.toNat from hk.symm.trans hlen]
    rfl

/-- The state once a byte within its frame is taken. -/
theorem takeByte_took (hlt : s.dec.cnt.toNat < 263) (acc : Half) (st : FsmState) (b : Byte) :
    takeByte s.dec.cnt.toNat (s.dec.cnt + 1) acc st b s = .ok { s with dec := s.dec.took b acc st, out := Out.quiet } :=
  takeByte_of_lt _ acc st b s (by simpa using hlt)

/-- Every byte is taken in its class, which keeps the invariant. -/
theorem InFlight.doClass (h : InFlight s.cfg s.dec p) (b : Byte) :
    ∃ t, Machine.doClass (classAt s.cfg b p.length (lenNat s.dec)) b s = .ok t ∧ DecInv t.cfg t.dec := by
  have hbound := h.bound
  by_cases hnoise : p.length = 0 ∧ b ≠ s.cfg.startMarker
  · rw [classAt, if_pos hnoise.1, if_neg hnoise.2]
    exact ⟨_, rfl, h.decInv⟩
  by_cases hsum : p.length < 6 + lenNat s.dec ∨ p.length < 6
  · have hmarker : p = [] → b = s.cfg.startMarker := by
      rintro rfl
      by_contra hb
      exact hnoise ⟨rfl, hb⟩
    refine ⟨_, (h.doClass_summed rfl hmarker hsum).trans (takeByte_took h.lt_maxFrame _ _ b),
      (h.tookSummed hmarker (by omega) ?_).decInv⟩
    by_cases h1 : s.dec.cnt.toNat = 1
    · rw [h.length]; omega
    · rw [lenTaking_of_ne h1]; omega
  by_cases hck1 : p.length = 6 + lenNat s.dec
  · rw [classAt_of_ck1 hck1]
    exact ⟨_, takeByte_took h.lt_maxFrame _ _ b, (h.tookFirstTrailer hck1 b).decInv⟩
  · rw [classAt_of_ck2 (by omega) (by omega)]
    exact h.doCk2 (by omega) b

/-- Every `SUBMIT` completes where the invariant holds, in the class of the count, and keeps it. -/
theorem DecInv.exec_submit (h : DecInv s.cfg s.dec) (b : Byte) :
    ∃ t, exec (.submit b) s = .next t ∧ DecInv t.cfg t.dec := by
  obtain ⟨p, hp⟩ := h.exists_inFlight
  obtain ⟨t, ht, hinv⟩ := hp.doClass b
  exact ⟨t, (exec_of_classify (hp.classify b) ht).2, hinv⟩

end

/-- Settles O20: the byte joins the frame in flight, or ends it, or is noise. -/
theorem submitKeepsTheDecoderInvariant : Obligations.SubmitKeepsTheDecoderInvariant :=
  fun _ b h => h.exec_submit b

/-! ## The accepted frame (spec/40_decoder.md R131, 30_encoding.md R95) -/

/-- A frame's record is taken from the buffer that holds it. -/
theorem isRecordOf_frameWithTrailer {cfg : Config} {m : List Host.Cell} {seq sysid compid msgid c1 c2 : Byte}
    {payload : List Byte} (hlen : payload.length ≤ 255)
    (h : Memory.Holds m (frameBody cfg seq sysid compid msgid payload ++ [c1, c2])) :
    IsRecordOf m (rxCk cfg c1 c2) (frameWithTrailer cfg seq sysid compid msgid payload c1 c2) where
  len := h 1 _ rfl
  seq := h 2 _ rfl
  sysid := h 3 _ rfl
  compid := h 4 _ rfl
  msgid := h 5 _ rfl
  payloadLength := (toNat_lenByte hlen).symm
  payload := fun p hp => by
    rw [frameWithTrailer, toNat_lenByte hlen] at hp
    rw [frameWithTrailer, List.getElem?_eq_getElem hp]
    refine (h (6 + p) _ ?_).symm
    rw [frameBody, List.append_assoc, List.getElem?_append_right (by simp), List.getElem?_append_left (by simpa using hp)]
    simp
  ck := rfl
  rawLength := by
    rw [frameWithTrailer, List.length_append, frameBody_length, toNat_lenByte hlen]
    simp only [List.length_cons, List.length_nil]
    omega
  raw := fun k hk => by
    rw [frameWithTrailer, toNat_lenByte hlen] at hk
    have hk' : k < (frameBody cfg seq sysid compid msgid payload ++ [c1, c2]).length := by
      rw [List.length_append, frameBody_length]
      simp only [List.length_cons, List.length_nil]
      omega
    rw [frameWithTrailer, List.getElem?_eq_getElem hk']
    exact (h k _ (List.getElem?_eq_getElem hk')).symm

theorem ckAccepts_of_bypass_or_eq {cfg : Config} {rx acc : Half} (h : cfg.ckMode = .bypass ∨ rx = acc) :
    ckAccepts cfg rx acc = true := by
  obtain h | h := h <;> simp [ckAccepts, h]

/-- Settles O16: the bytes in flight and the last one are a whole frame, whose record `CK2` emits. -/
theorem acceptedFrameIsEmitted : Obligations.AcceptedFrameIsEmitted := by
  intro s b first hd hst hfirst haccept
  have hcnt := hd.toNat_cnt_of_gotChecksumByte1 hst
  obtain ⟨p, hp⟩ := hd.exists_inFlight
  obtain ⟨seq, sysid, compid, msgid, payload, c1, hpayload, rfl⟩ := hp.exists_frameBody (hp.length.trans hcnt)
  obtain rfl : c1 = first := by
    have hlt := hp.lt_maxFrame
    have hprev : (s.dec.cnt - 1).toNat = s.dec.cnt.toNat - 1 := by bv_omega
    have hread := hp.read_pred_cnt
    rw [hprev, hfirst] at hread
    exact (Option.some.inj hread).symm
  have hholds := hp.holds_last b
  rw [List.append_assoc] at hholds
  have hdo := doCk2_of_accepted hp.lt_maxFrame hp.read_pred_cnt (ckAccepts_of_bypass_or_eq haccept)
    (frameRecord_of_holds hpayload hholds)
  obtain ⟨hown, hsubmit⟩ := exec_of_classify (classify_of_gotChecksumByte1 b hst) hdo
  refine ⟨_, _, hown, hsubmit, rfl, isRecordOf_frameWithTrailer hpayload hholds, ?low, ?high, rfl,
    closesFrame_closed s b s.dec.ckDropCnt _⟩
  case low => intro horder; rw [frameWithTrailer, rxCk, horder]
  case high => intro horder; rw [frameWithTrailer, rxCk, horder]

end Sys2Proof.Machine

namespace Sys2Proof.Machine

/-! ## Runs whose steps are silent but for the last (spec/40_decoder.md R134) -/

theorem framesOf_append (o p : List Out) : framesOf (o ++ p) = framesOf o ++ framesOf p := List.filterMap_append

theorem dropsOf_append (o p : List Out) : dropsOf (o ++ p) = dropsOf o + dropsOf p := List.countP_append

theorem framesOf_quiet (n : Nat) : framesOf (List.replicate n Out.quiet) = [] := by
  simp [framesOf, Out.quiet]

theorem dropsOf_quiet (n : Nat) : dropsOf (List.replicate n Out.quiet) = 0 := by
  simp [dropsOf, Out.quiet]

/-- Noise before a frame is skipped, byte by byte. -/
theorem runOps_noise {s : State} {bytes : List Byte} (hst : s.dec.st = .waitingForStart)
    (hnoise : ∀ b ∈ bytes, b ≠ s.cfg.startMarker) :
    ∃ t, runOps (submits bytes) s = .next (t, List.replicate bytes.length Out.quiet) ∧ t.dec = s.dec ∧ t.rb = s.rb := by
  induction bytes generalizing s with
  | nil => exact ⟨s, rfl, rfl, rfl⟩
  | cons b bytes ih =>
    obtain ⟨hb, hrest⟩ := List.forall_mem_cons.mp hnoise
    have hexec : exec (.submit b) s = .next s.still := (noiseByteChangesNoState s b hst hb).2
    obtain ⟨t, hrun, hdec, hrb⟩ := ih (s := s.still) hst hrest
    exact ⟨t, runOps_cons hexec hrun, hdec, hrb⟩

/-- Settles O24: every byte is noise, whose step is still and silent. -/
theorem noiseIsSkippedAndNotCounted : Obligations.NoiseIsSkippedAndNotCounted := by
  intro s bytes hst hnoise
  obtain ⟨t, hrun, hdec, hrb⟩ := runOps_noise hst hnoise
  exact ⟨t, _, hrun, hdec, hrb, framesOf_quiet _, dropsOf_quiet _⟩

/-! ## A whole frame (spec/40_decoder.md R134 with R131) -/

section

variable {s : State} {seq sysid compid msgid c1 c2 : Byte} {payload : List Byte}

/-- The latest byte of a frame under way stands below `cnt`. -/
theorem FrameUnderWay.read_pred_cnt {t : State} {p : List Byte} {b : Byte} {acc : Half} {st : FsmState}
    (h : FrameUnderWay s t (p ++ [b]) acc st) (hp : p.length < 263) :
    Memory.read t.dec.buf (t.dec.cnt - 1).toNat = some b := by
  have hcnt := h.cnt
  rw [List.length_append, List.length_singleton] at hcnt
  have hprev : (t.dec.cnt - 1).toNat = p.length := by bv_omega
  exact h.holds _ _ (by rw [hprev, List.getElem?_concat_length])

/-- A frame whose trailer `CK2` does not accept is dropped and counted at its last byte; no step before that asserts a
strobe (R131, R134). -/
theorem submitFrame_of_rejected (hst : s.dec.st = .waitingForStart) (hlen : payload.length ≤ 255)
    (hrej : ckAccepts s.cfg (rxCk s.cfg c1 c2)
      (ckFold s.cfg (coveredBytes s.cfg seq sysid compid msgid payload)) = false) :
    ∃ t, runOps (submits (frameBody s.cfg seq sysid compid msgid payload ++ [c1, c2])) s =
        .next (t, List.replicate (7 + payload.length) Out.quiet ++ [{ Out.quiet with ckDrop := true }]) ∧
      t.dec.st = .waitingForStart ∧ t.dec.cnt = 0 ∧ t.dec.ckDropCnt = dropSucc s.cfg s.dec.ckDropCnt ∧ t.rb = s.rb := by
  have hbody := frameBody_length s.cfg seq sysid compid msgid payload
  obtain ⟨_, h⟩ := frameUnderWay_frameBody seq sysid compid msgid hst hlen
  obtain ⟨u, hu⟩ := h.snocFirstTrailer rfl (by rw [hbody, toNat_lenByte hlen]) c1
  have hcnt : u.dec.cnt.toNat = 7 + payload.length := by rw [hu.cnt]; simp [hbody]; omega
  have hdo := doCk2_of_rejected (by omega) (hu.read_pred_cnt (by omega)) (by rw [hu.cfg, hu.ckAcc, hrej])
  have hrun := hu.run_snoc (exec_of_classify (classify_of_gotChecksumByte1 c2 hu.st) hdo).2
  rw [← hu.cnt, hcnt, List.append_assoc] at hrun
  exact ⟨_, hrun, rfl, rfl, by rw [← hu.cfg, ← hu.ckDropCnt], hu.rb⟩

end

/-- Settles O25: the trailer's checksum is accepted or not, and the two runs differ in their last step only. -/
theorem aFrameIsEmittedOrDroppedByItsTrailer : Obligations.AFrameIsEmittedOrDroppedByItsTrailer := by
  intro s seq sysid compid msgid c1 c2 payload hst hlen
  cases hacc : ckAccepts s.cfg (rxCk s.cfg c1 c2) (ckFold s.cfg (coveredBytes s.cfg seq sysid compid msgid payload)) with
  | true =>
    obtain ⟨t, hrun, hwaiting, hcnt, hdrops, hrb⟩ := submitFrame_of_accepted hst hlen hacc
    refine ⟨t, _, hrun, hwaiting, hcnt, hrb, ?length, fun _ => ⟨?frames, ?drops, hdrops⟩, fun ⟨hmode, hne⟩ => ?mismatch⟩
    case length => simp; omega
    case frames => rw [framesOf_append, framesOf_quiet]; rfl
    case drops => rw [dropsOf_append, dropsOf_quiet]; rfl
    case mismatch =>
      rw [ckAccepts_of_mismatch hmode hne] at hacc
      cases hacc
  | false =>
    obtain ⟨t, hrun, hwaiting, hcnt, hdrops, hrb⟩ := submitFrame_of_rejected hst hlen hacc
    refine ⟨t, _, hrun, hwaiting, hcnt, hrb, ?length, fun h => ?accepted, fun _ => ⟨?frames, ?drops, hdrops⟩⟩
    case length => simp; omega
    case accepted =>
      rw [ckAccepts_of_bypass_or_eq h] at hacc
      cases hacc
    case frames => rw [framesOf_append, framesOf_quiet]; rfl
    case drops => rw [dropsOf_append, dropsOf_quiet]; rfl

/-! ## The frame sink (spec/42_collaborators.md R180 to R184) -/

/-- Silent steps give the sink nothing. -/
theorem foldl_take_quiet (cfg : Config) (k : FrameSink) (n : Nat) :
    (List.replicate n Out.quiet).foldl (FrameSink.take cfg) k = k := by
  induction n with
  | zero => rfl
  | succ n ih => rw [List.replicate_succ, List.foldl_cons]; exact ih

/-- Settles O58: the run's one frame is the heartbeat, which the sink takes. -/
theorem heartbeatReachesTheVehicleState : Obligations.HeartbeatReachesTheVehicleState := by
  intro s k seq sysid compid payload hst hlen
  obtain ⟨c1, c2, htrailer, hck⟩ :=
    trailer_rxCk s.cfg (ckFold s.cfg (coveredBytes s.cfg seq sysid compid s.cfg.msgidHeartbeat payload))
  obtain ⟨t, hrun, _⟩ := submitFrame_of_accepted (c1 := c1) (c2 := c2) hst hlen (by rw [hck, ckAccepts_self])
  refine ⟨t, _, by rwa [frameBytes, htrailer], ?_⟩
  rw [List.foldl_append, foldl_take_quiet, List.foldl_cons, List.foldl_nil]
  cases hobs : k.observer <;> simp [FrameSink.take, FrameSink.dispatch, frameWithTrailer, hobs]

/-! ## The units share no state (spec/00_scope.md R2) -/

/-- What a class does depends on the configuration and DEC alone. -/
theorem doClass_congr {c : ByteClass} {b : Byte} {s s' t : State} (hcfg : s'.cfg = s.cfg) (hdec : s'.dec = s.dec)
    (h : doClass c b s = .ok t) : ∃ t', doClass c b s' = .ok t' ∧ t'.dec = t.dec ∧ t'.out = t.out := by
  obtain ⟨cfg, dec, rb, out, ports, queue, fresh⟩ := s'
  cases hcfg
  cases hdec
  cases c with
  | noise => cases h; exact ⟨_, rfl, rfl, rfl⟩
  | ck2 =>
    obtain ⟨hcnt, first, hfirst, ⟨hacc, fr, hrec, rfl⟩ | ⟨hrej, rfl⟩⟩ := doCk2_ok h
    · exact ⟨_, doCk2_of_accepted (by simpa using hcnt) hfirst hacc hrec, rfl, rfl⟩
    · exact ⟨_, doCk2_of_rejected (by simpa using hcnt) hfirst hrej, rfl, rfl⟩
  | start | len | seq | sysid | compid | msgid | payload | ck1 =>
    obtain ⟨hk, rfl⟩ := takeByte_ok h
    exact ⟨_, takeByte_of_lt _ _ _ _ _ hk, rfl, rfl⟩

theorem exec_submit_congr {b : Byte} {s s' t : State} (hcfg : s'.cfg = s.cfg) (hdec : s'.dec = s.dec)
    (h : exec (.submit b) s = .next t) : ∃ t', exec (.submit b) s' = .next t' ∧ t'.dec = t.dec ∧ t'.out = t.out := by
  obtain ⟨c, hc, ht⟩ := execSubmit_next h
  obtain ⟨t', ht', hsame⟩ := doClass_congr hcfg hdec ht
  rw [← hcfg, ← hdec] at hc
  exact ⟨t', (exec_of_classify hc ht').2, hsame⟩

section

variable {s s' : State}

theorem pushed_congr (hcfg : s'.cfg = s.cfg) (hrb : s'.rb = s.rb) (x : Sample) :
    (s'.pushed x).rb = (s.pushed x).rb ∧ (s'.pushed x).out = (s.pushed x).out := by
  simp [State.pushed, State.wptr, hcfg, hrb]

theorem doRequest_congr (hrb : s'.rb = s.rb) (r n : Nat) : (doRequest r n s').rb = (doRequest r n s).rb := by
  simp [doRequest, snapshot, readLength, State.setCtx, hrb]

theorem beaten_congr (hcfg : s'.cfg = s.cfg) (hrb : s'.rb = s.rb) (r : Nat) (x : Sample) :
    (s'.beaten r x).rb = (s.beaten r x).rb ∧ (s'.beaten r x).out = (s.beaten r x).out := by
  simp [State.beaten, State.setCtx, State.ctx, hcfg, hrb]

theorem exec_latestReq_congr {r n : Nat} {t : State} (hrb : s'.rb = s.rb)
    (h : exec (.latestReq r n) s = .next t) :
    ∃ t', exec (.latestReq r n) s' = .next t' ∧ t'.rb = t.rb ∧ t'.out = t.out := by
  have hctx : s'.ctx r = s.ctx r := by rw [State.ctx, hrb, State.ctx]
  have hhas : s'.hasCtx r = s.hasCtx r := by rw [State.hasCtx, hrb, State.hasCtx]
  obtain ⟨hr, ⟨hbusy, rfl⟩ | ⟨hfree, rfl⟩⟩ := execLatestReq_next h
  · exact ⟨_, exec_latestReq_of_busy n (hhas.trans hr) (hctx ▸ hbusy), hrb, rfl⟩
  · exact ⟨_, exec_latestReq_of_free n (hhas.trans hr) (hctx ▸ hfree), doRequest_congr hrb r n, rfl⟩

theorem exec_latestBeat_congr {r : Nat} {t : State} (hcfg : s'.cfg = s.cfg) (hrb : s'.rb = s.rb)
    (h : exec (.latestBeat r) s = .next t) :
    ∃ t', exec (.latestBeat r) s' = .next t' ∧ t'.rb = t.rb ∧ t'.out = t.out := by
  have hctx : s'.ctx r = s.ctx r := by rw [State.ctx, hrb, State.ctx]
  have hhas : s'.hasCtx r = s.hasCtx r := by rw [State.hasCtx, hrb, State.hasCtx]
  obtain ⟨hr, ⟨hbusy, hdo⟩ | ⟨hfree, rfl⟩⟩ := execLatestBeat_next h
  · obtain ⟨x, hx, rfl⟩ := doBeat_ok hdo
    rw [State.rptr, ← hctx, ← hcfg, ← hrb] at hx
    exact ⟨_, exec_latestBeat_of_read (hhas.trans hr) (hctx ▸ hbusy) hx, beaten_congr hcfg hrb r x⟩
  · exact ⟨_, exec_latestBeat_of_free (hhas.trans hr) (hctx ▸ hfree), hrb, rfl⟩

end

/-- Settles O53: each unit's operations by what they read, and by the frame lemmas. -/
theorem theUnitsShareNoState : Obligations.TheUnitsShareNoState := by
  refine ⟨fun s s' t b hcfg hdec h => ⟨?rb, exec_submit_congr hcfg hdec h⟩, fun s s' t i hi hcfg hrb h => ?ring⟩
  case rb =>
    obtain ⟨_, _, ht⟩ := execSubmit_next h
    exact (doClass_env ht).1
  case ring =>
    obtain ⟨x, rfl⟩ | ⟨r, n, rfl⟩ | ⟨r, rfl⟩ := hi
    · obtain rfl := exec_push_next h
      exact ⟨rfl, _, exec_push x s', pushed_congr hcfg hrb x⟩
    · exact ⟨(readsWriteOnlyTheirOwnContext s t r n (.inl h)).dec, exec_latestReq_congr hrb h⟩
    · exact ⟨(readsWriteOnlyTheirOwnContext s t r 0 (.inr h)).dec, exec_latestBeat_congr hcfg hrb h⟩

/-! ## Chunking (spec/40_decoder.md R133) -/

/-- `s` and `s'` hold the same block, in which DEC's invariant holds, with nothing presented, and `q` and `q'` pending. -/
structure Twins (s s' : State) (q q' : List Instr) : Prop where
  inv : DecInv s.cfg s.dec
  cfg : s'.cfg = s.cfg
  dec : s'.dec = s.dec
  rb : s'.rb = s.rb
  ports : s.ports = []
  ports' : s'.ports = []
  queue : s.queue = q
  queue' : s'.queue = q'

/-- With nothing presented, a pending operation that needs no context is performed. -/
theorem step_of_queue {s : State} {i : Instr} {is : List Instr} (hports : s.ports = []) (hq : s.queue = i :: is)
    (hfree : needsFree i = none) : step s = exec i { s with queue := is } := by
  refine step_of_fetch ?_
  rw [fetch_of_nil hports, quietTurn_of_queue hq, pendingTurn_of_free is (by simp [hfree])]

section

variable {s s' : State} {q q' : List Instr}

/-- Both twins take the next byte alike. -/
theorem Twins.step {b : Byte} (h : Twins s s' (.submit b :: q) (.submit b :: q')) :
    ∃ t t', step s = .next t ∧ step s' = .next t' ∧ t'.out = t.out ∧ Twins t t' q q' := by
  obtain ⟨t, hexec, hinv⟩ := DecInv.exec_submit (s := { s with queue := q }) h.inv b
  obtain ⟨t', hexec', hdec, hout⟩ := exec_submit_congr (s := { s with queue := q }) (s' := { s' with queue := q' }) h.cfg h.dec hexec
  obtain ⟨_, _, ht⟩ := execSubmit_next hexec
  obtain ⟨_, _, ht'⟩ := execSubmit_next hexec'
  obtain ⟨hrb, hcfg, hports, hqueue, _⟩ := doClass_env ht
  obtain ⟨hrb', hcfg', hports', hqueue', _⟩ := doClass_env ht'
  refine ⟨t, t', (step_of_queue h.ports h.queue rfl).trans hexec, (step_of_queue h.ports' h.queue' rfl).trans hexec',
    hout, ?_⟩
  exact { inv := hinv, cfg := by rw [hcfg', hcfg, h.cfg], dec := hdec, rb := by rw [hrb', hrb, h.rb]
          ports := hports.trans h.ports, ports' := hports'.trans h.ports', queue := hqueue, queue' := hqueue' }

/-- Both twins take the same bytes alike. -/
theorem Twins.runSteps {bytes : List Byte} (h : Twins s s' (submits bytes ++ q) (submits bytes ++ q')) :
    ∃ t t' outs, runSteps bytes.length s = .next (t, outs) ∧ runSteps bytes.length s' = .next (t', outs) ∧
      Twins t t' q q' := by
  induction bytes generalizing s s' with
  | nil => exact ⟨s, s', [], rfl, rfl, h⟩
  | cons b bytes ih =>
    obtain ⟨u, u', hstep, hstep', hout, hu⟩ := Twins.step h
    obtain ⟨t, t', outs, hrun, hrun', ht⟩ := ih hu
    exact ⟨t, t', u.out :: outs, runSteps_succ hstep hrun, hout ▸ runSteps_succ hstep' hrun', ht⟩

/-- A `processMessage` of all its bytes leaves the block, and owes the bytes. -/
theorem Twins.step_message {bytes : List Byte} (h : Twins s s' q (.processMessage bytes bytes.length :: q')) :
    ∃ u, Machine.step s' = .next u ∧ u.out = Out.quiet ∧ Twins s u q (submits bytes ++ q') := by
  refine ⟨_, (step_of_queue h.ports' h.queue' rfl).trans (exec_processMessage ..), rfl, ?_⟩
  exact { inv := h.inv, cfg := h.cfg, dec := h.dec, rb := h.rb, ports := h.ports, ports' := h.ports', queue := h.queue
          queue' := by rw [State.told_queue, State.messageBytes_length] }

end

/-- Steps after steps are steps. -/
theorem runSteps_add {k l : Nat} {s t u : State} {o p : List Out} (h : runSteps k s = .next (t, o))
    (h' : runSteps l t = .next (u, p)) : runSteps (k + l) s = .next (u, o ++ p) := by
  induction k generalizing s o with
  | zero =>
    cases h
    simpa using h'
  | succ k ih =>
    rw [runSteps] at h
    split at h
    case h_3 v hv =>
      split at h
      case h_3 w outs hw =>
        cases h
        rw [Nat.add_right_comm]
        exact runSteps_succ hv (ih hw)
      all_goals cases h
    all_goals cases h

/-- All bytes one at a time, and the chunks as `processMessage` calls, run alike. -/
theorem Twins.runSteps_chunks {s s' : State} {chunks : List (List Byte)}
    (h : Twins s s' (submits chunks.flatten) (chunks.map fun c => .processMessage c c.length)) :
    ∃ t outs t' outs', Machine.runSteps chunks.flatten.length s = .next (t, outs) ∧
      Machine.runSteps (chunks.length + chunks.flatten.length) s' = .next (t', outs') ∧ Twins t t' [] [] ∧
      framesOf outs' = framesOf outs ∧ dropsOf outs' = dropsOf outs := by
  induction chunks generalizing s s' with
  | nil => exact ⟨s, [], s', [], rfl, rfl, h, rfl, rfl⟩
  | cons c chunks ih =>
    obtain ⟨v, hstep, hquiet, hv⟩ := h.step_message
    rw [List.flatten_cons, submits_append] at hv
    obtain ⟨u, u', outsC, hrunC, hrunC', hu⟩ := hv.runSteps
    obtain ⟨t, outs, t', outs', hrun, hrun', ht, hframes, hdrops⟩ := ih hu
    refine ⟨t, outsC ++ outs, t', v.out :: (outsC ++ outs'), ?bytes, ?messages, ht, ?frames, ?drops⟩
    case bytes =>
      rw [List.flatten_cons, List.length_append]
      exact runSteps_add hrunC hrun
    case messages =>
      have hall := runSteps_succ hstep (runSteps_add hrunC' hrun')
      rw [List.flatten_cons, List.length_append, List.length_cons]
      rwa [show c.length + (chunks.length + chunks.flatten.length) + 1 =
        chunks.length + 1 + (c.length + chunks.flatten.length) by omega] at hall
    case frames =>
      rw [hquiet, ← List.singleton_append, framesOf_append, framesOf_append, framesOf_append, hframes]
      rfl
    case drops =>
      rw [hquiet, ← List.singleton_append, dropsOf_append, dropsOf_append, dropsOf_append, hdrops]
      exact Nat.zero_add _

/-- Settles O27: the two runs are twins from the start, and stay so chunk by chunk. -/
theorem chunkingDoesNotMatter : Obligations.ChunkingDoesNotMatter := by
  intro s chunks hinv hports
  have htwins : Twins { s with queue := submits chunks.flatten }
      { s with queue := chunks.map fun c => .processMessage c c.length } (submits chunks.flatten)
      (chunks.map fun c => .processMessage c c.length) :=
    { inv := hinv, cfg := rfl, dec := rfl, rb := rfl, ports := hports, ports' := hports, queue := rfl, queue' := rfl }
  obtain ⟨t, outs, t', outs', hrun, hrun', ht, hframes, hdrops⟩ := htwins.runSteps_chunks
  exact ⟨t, outs, t', outs', hrun, hrun', ht.dec, ht.rb, hframes, hdrops, ht.queue, ht.queue'⟩

end Sys2Proof.Machine

namespace Sys2Proof.Machine

/-! ## The invariant of RB under its own operations (spec/10_state.md R41 to R47) -/

theorem ctx_mem {s : State} {r : Nat} (hctx : s.hasCtx r = true) : s.ctx r ∈ s.rb.rd := by
  have hr : r < s.rb.rd.length := by simpa [State.hasCtx] using hctx
  rw [State.ctx, List.getD_eq_getElem _ _ hr]
  exact List.getElem_mem hr

/-- A busy context is one of the `NREADERS` there are. -/
theorem hasCtx_of_busy {s : State} {r : Nat} (hbusy : (s.ctx r).busy = true) : s.hasCtx r = true := by
  by_contra h
  have hr : s.rb.rd.length ≤ r := by simpa [State.hasCtx] using h
  rw [State.ctx, List.getD_eq_default _ _ hr] at hbusy
  cases hbusy

theorem RbInv.hasCtx_iff {s : State} (h : RbInv s.cfg s.rb) (r : Nat) : s.hasCtx r = true ↔ r < s.cfg.nReaders := by
  rw [State.hasCtx, h.contexts, decide_eq_true_iff]

/-- A context that is not busy has its bounds only. -/
theorem ctxInv_of_free {cfg : Config} {count : Nat} {c : RdCtx} (hfree : c.busy = false) (hw : c.w < 2 ^ cfg.wcurW)
    (hi : c.i ≤ c.m) (hm : c.m ≤ cfg.cap) : CtxInv cfg count c where
  cursor := hw
  progress := hi
  length := hm
  live := fun h => by rw [hfree] at h; cases h
  reach := fun h => by rw [hfree] at h; cases h

theorem CtxInv.released {cfg : Config} {count : Nat} {c : RdCtx} (h : CtxInv cfg count c) (count' : Nat) :
    CtxInv cfg count' c.released :=
  ctxInv_of_free rfl h.cursor h.progress h.length

/-- A ring that fills up keeps what a read in progress still needs. -/
theorem CtxInv.mono {cfg : Config} {count count' : Nat} {c : RdCtx} (h : CtxInv cfg count c) (hle : count ≤ count') :
    CtxInv cfg count' c where
  cursor := h.cursor
  progress := h.progress
  length := h.length
  live := fun hb => by
    obtain ⟨hi, hm, hgot⟩ := h.live hb
    exact ⟨hi, hm.trans hle, hgot⟩
  reach := fun hb hlt => by
    obtain ⟨hm, hw⟩ := h.reach hb (Nat.lt_of_le_of_lt hle hlt)
    exact ⟨hm, hw.trans hle⟩

section

variable {s : State}

theorem RbInv.snapshot (h : RbInv s.cfg s.rb) (n : Nat) : CtxInv s.cfg s.rb.count (snapshot s n) where
  cursor := h.cursor
  progress := Nat.zero_le _
  length := (Nat.min_le_right ..).trans h.bound
  live := fun hb => ⟨Nat.pos_of_ne_zero (bne_iff_ne.mp hb), Nat.min_le_right .., rfl⟩
  reach := fun _ hlt => by
    rw [snapshot_w, snapshot_m, h.young hlt]
    exact ⟨Nat.min_le_right .., le_rfl⟩

/-- A beat leaves its context within its bounds, free when it was the last (R158, R160). -/
theorem CtxInv.beaten {cfg : Config} {count : Nat} {c : RdCtx} (h : CtxInv cfg count c) (hb : c.busy = true) (x : Sample) :
    CtxInv cfg count (c.beaten cfg.cap x) := by
  obtain ⟨hi, hm, hgot⟩ := h.live hb
  have hcap : c.i < cfg.cap := Nat.lt_of_lt_of_le hi h.length
  have hnext : (c.beaten cfg.cap x).i = c.i + 1 := beatIndexSucc_of_lt hcap
  have hbusy : (c.beaten cfg.cap x).busy = true ↔ c.i + 1 ≠ c.m := by simp [RdCtx.last_of_lt hcap]
  refine { cursor := h.cursor, progress := ?progress, length := h.length, live := ?live, reach := fun _ => h.reach hb }
  case progress => rw [hnext]; exact hi
  case live =>
    intro hb'
    rw [hnext, RdCtx.beaten_m, RdCtx.beaten_got, List.length_append, List.length_singleton]
    have hne := hbusy.mp hb'
    exact ⟨by omega, hm, by omega⟩

/-- A ring with one context replaced. -/
theorem RbInv.setCtx (h : RbInv s.cfg s.rb) (r : Nat) {c : RdCtx} (hc : CtxInv s.cfg s.rb.count c) :
    RbInv s.cfg (s.setCtx r c).rb where
  canonical := h.canonical
  cursor := h.cursor
  width := h.width
  bound := h.bound
  young := h.young
  filled := h.filled
  contexts := by rw [State.setCtx_rd, List.length_set, h.contexts]
  readers := fun c' hc' => by
    obtain hc' | rfl := List.mem_or_eq_of_mem_set hc'
    · exact h.readers c' hc'
    · exact hc

theorem wptr_lt (s : State) : s.wptr < s.cfg.cap := Nat.mod_lt _ s.cfg.capPos

/-- Until the ring is full the cursor does not wrap, and points to the first slot without a sample (R44). -/
theorem RbInv.wptr_of_young (h : RbInv s.cfg s.rb) (hlt : s.rb.count < s.cfg.cap) : s.wptr = s.rb.count := by
  rw [State.wptr, h.young hlt, Nat.mod_eq_of_lt hlt]

/-- `PUSH` keeps the invariant, also where the cursor wraps: the ring is full there (R44, R253). -/
theorem RbInv.pushed (h : RbInv s.cfg s.rb) {x : Sample} (hx : x < 2 ^ s.cfg.sw) : RbInv s.cfg (s.pushed x).rb where
  canonical := Memory.wf_write x h.canonical (wptr_lt s)
  cursor := Nat.mod_lt _ (Nat.two_pow_pos _)
  width := fun j y hy => by
    by_cases hj : j = s.rb.wcur % s.cfg.cap
    · rw [hj, State.read_pushed_same] at hy
      cases hy
      exact hx
    · rw [State.read_pushed_other x hj] at hy
      exact h.width j y hy
  bound := Nat.min_le_right ..
  young := fun hlt => by
    rw [State.pushed_count] at hlt ⊢
    have hcap := s.cfg.cap_lt_cursor
    have hyoung := h.young (by omega)
    rw [State.pushed_wcur, hyoung, Nat.mod_eq_of_lt (by omega)]
    omega
  filled := fun j hj => by
    rw [State.pushed_count] at hj
    by_cases hw : j = s.rb.wcur % s.cfg.cap
    · rw [hw, State.read_pushed_same]
      rfl
    · rw [State.read_pushed_other x hw]
      refine h.filled j ?_
      by_contra hge
      have hlt : s.rb.count < s.cfg.cap := by omega
      have hwptr := h.wptr_of_young hlt
      rw [State.wptr] at hwptr
      omega
  contexts := h.contexts
  readers := fun c hc => (h.readers c hc).mono (by
    rw [State.pushed_count]
    have hbound := h.bound
    omega)

theorem RbInv.afterReset {cfg : Config} {b : Rb} (h : RbInv cfg b) : RbInv cfg b.afterReset where
  canonical := rfl
  cursor := Nat.two_pow_pos _
  width := fun j y hy => by cases hy
  bound := Nat.zero_le _
  young := fun _ => rfl
  filled := fun j hj => absurd hj (Nat.not_lt_zero j)
  contexts := by rw [Rb.afterReset_rd, List.length_map, h.contexts]
  readers := fun c hc => by
    obtain ⟨c', hc', rfl⟩ := List.mem_map.mp hc
    exact (h.readers c' hc').released _

/-- A beat of a busy context finds a sample in its slot (R47), also where the cursor has wrapped (R253). -/
theorem RbInv.read_rptr (h : RbInv s.cfg s.rb) {r : Nat} (hbusy : (s.ctx r).busy = true) :
    ∃ x, Memory.read s.rb.slots (s.rptr r) = some x := by
  have hinv := h.readers _ (ctx_mem (hasCtx_of_busy hbusy))
  obtain ⟨hi, hm, _⟩ := hinv.live hbusy
  refine Option.isSome_iff_exists.mp (h.filled _ ?_)
  by_cases hfull : s.rb.count = s.cfg.cap
  · rw [hfull]
    exact Nat.mod_lt _ s.cfg.capPos
  · have hbound := h.bound
    obtain ⟨hmw, hw⟩ := hinv.reach hbusy (by omega)
    rw [State.rptr, rptrOf_of_noBorrow (by omega) hinv.cursor]
    exact Nat.lt_of_le_of_lt (Nat.mod_le _ _) (by omega)

end

/-! ## What may be pending and presented (spec/20_memory.md R71) -/

theorem plannable_beat {cfg : Config} {r : Nat} (h : r < cfg.nReaders) : plannable cfg (.latestBeat r) = true := by
  simp [plannable, Instr.wf, onPort, h]

theorem plannable_submit (cfg : Config) (b : Byte) : plannable cfg (.submit b) = true := by
  simp [plannable, Instr.wf, onPort]

/-- A word the ports can carry selects an operation that may be pending. -/
theorem plannable_decode {cfg : Config} {w : PortWord} (h : presentable cfg w = true) :
    plannable cfg (decode w) = true := by
  simp only [presentable, Bool.and_eq_true, decide_eq_true_eq] at h
  obtain ⟨⟨hctx, hsample⟩, hn⟩ := h
  obtain h3 | ⟨h3, h2⟩ | ⟨h3, h2, h0⟩ | ⟨h3, h2, h0, h1⟩ | hzero := ctl_cases w.ctl
  · rw [(decode_of_rst h3).1]; rfl
  · rw [decode_of_submit h3 h2]; exact plannable_submit cfg _
  · rw [decode_of_request h3 h2 h0]
    simp [plannable, Instr.wf, onPort, hctx, hn]
  · rw [decode_of_push h3 h2 h0 h1]
    simp [plannable, Instr.wf, onPort, hsample]
  · rw [decode_of_quiet hzero]
    cases hw : w.ctx with
    | none => rfl
    | some r =>
      rw [hw] at hctx
      exact plannable_beat hctx

theorem presentable_of_sameOperands {cfg : Config} {v w : PortWord} (h : SameOperands v w)
    (hw : presentable cfg w = true) : presentable cfg v = true := by
  obtain ⟨hctx, hsample, hn⟩ := h
  rw [presentable, hctx, hsample, hn]
  exact hw

/-- So does every strobe the word still presents. -/
theorem plannable_of_mem_ops {cfg : Config} {w : PortWord} (h : presentable cfg w = true) {i : Instr}
    (hi : i ∈ PortWord.ops w) : plannable cfg i = true := by
  rw [PortWord.ops, List.mem_cons, List.mem_flatMap] at hi
  obtain rfl | ⟨v, hv, hi⟩ := hi
  · exact plannable_decode h
  have hpv := presentable_of_sameOperands (sameOperands_of_mem_rest hv) h
  rw [List.mem_cons, List.mem_map] at hi
  obtain rfl | ⟨u, hu, rfl⟩ := hi
  · exact plannable_decode hpv
  · exact plannable_decode (presentable_of_sameOperands (sameOperands_of_mem_rest hu) hpv)

section

variable {s t : State} {i : Instr}

/-- What has the turn may be pending, in a state that meets the invariant still. -/
theorem Turn.inv (h : Turn s i t) (hs : s.Inv) : plannable t.cfg i = true ∧ t.Inv := by
  have hops : ∀ j ∈ s.ports.flatMap PortWord.ops, plannable s.cfg j = true := by
    intro j hj
    obtain ⟨w, hw, hj⟩ := List.mem_flatMap.mp hj
    exact plannable_of_mem_ops (hs.ports w hw) hj
  obtain ⟨hcfg, hdec, hrb, _⟩ := h.block
  refine ⟨?op, { dec := ?dec, rb := ?rb, queue := ?queue, ports := ?ports }⟩
  case op =>
    rw [hcfg]
    obtain hi | hi | rfl | ⟨r, rfl, hbusy⟩ := h.origin
    · exact hs.queue i hi
    · exact hops i hi
    · rfl
    · exact plannable_beat ((hs.rb.hasCtx_iff r).mp (hasCtx_of_busy hbusy))
  case dec => rw [hcfg, hdec]; exact hs.dec
  case rb => rw [hcfg, hrb]; exact hs.rb
  case queue =>
    intro j hj
    rw [hcfg]
    obtain hj | hj := h.queue j hj
    · exact hs.queue j hj
    · exact hops j hj
  case ports =>
    intro v hv
    rw [hcfg]
    obtain ⟨w, hw, hvw⟩ := h.ports v hv
    exact presentable_of_sameOperands hvw (hs.ports w hw)

/-! ## Every operation keeps the invariant -/

/-- A byte's class keeps DEC's invariant. -/
theorem DecInv.doClass {b : Byte} {c : ByteClass} (h : DecInv s.cfg s.dec) (hc : classify s.cfg s.dec b = .ok c)
    (ht : Machine.doClass c b s = .ok t) : DecInv t.cfg t.dec := by
  obtain ⟨u, hu, hinv⟩ := h.exec_submit b
  rw [(exec_of_classify hc ht).2] at hu
  cases hu
  exact hinv

/-- A state with the same units meets the invariant, if what it has pending and presented may be. -/
theorem State.Inv.of_units (h : s.Inv) (hcfg : t.cfg = s.cfg) (hdec : t.dec = s.dec) (hrb : RbInv s.cfg t.rb)
    (hports : t.ports = s.ports) (hqueue : ∀ j ∈ t.queue, j ∈ s.queue ∨ plannable s.cfg j = true) : t.Inv where
  dec := by rw [hcfg, hdec]; exact h.dec
  rb := by rw [hcfg]; exact hrb
  queue := fun j hj => by
    rw [hcfg]
    exact (hqueue j hj).elim (h.queue j) id
  ports := by rw [hcfg, hports]; exact h.ports

/-- What an operation that may be pending leaves meets the invariant. -/
theorem Effect.inv (h : Effect s i t) (hs : s.Inv) (hi : plannable s.cfg i = true) : t.Inv := by
  cases h with
  | takes _ hc ht =>
    obtain ⟨hrb, hcfg, hports, hqueue, _⟩ := doClass_env ht
    exact { dec := hs.dec.doClass hc ht, rb := by rw [hcfg, hrb]; exact hs.rb
            queue := by rw [hcfg, hqueue]; exact hs.queue, ports := by rw [hcfg, hports]; exact hs.ports }
  | clears => exact { dec := decInv_of_waiting rfl rfl rfl (Nat.two_pow_pos _), rb := hs.rb.afterReset, queue := hs.queue, ports := hs.ports }
  | pushes x =>
    have hx : x < 2 ^ s.cfg.sw := by simpa [plannable, Instr.wf, onPort] using hi
    exact hs.of_units rfl rfl (hs.rb.pushed hx) rfl fun _ => .inl
  | waits =>
    refine hs.of_units rfl rfl hs.rb rfl fun j hj => ?_
    obtain hj | hj := List.mem_append.mp hj
    · exact .inl hj
    · exact .inr (List.mem_singleton.mp hj ▸ hi)
  | @requests r n => exact hs.of_units rfl rfl (hs.rb.setCtx r (hs.rb.snapshot n)) rfl fun _ => .inl
  | @reads _ r n _ hctx =>
    refine hs.of_units rfl rfl (hs.rb.setCtx r (hs.rb.snapshot n)) rfl fun j hj => ?_
    obtain hj | hj := List.mem_append.mp hj
    · rw [List.eq_of_mem_replicate hj]
      exact .inr (plannable_beat ((hs.rb.hasCtx_iff r).mp hctx))
    · exact .inl hj
  | @beats r x hctx hbusy =>
    exact hs.of_units rfl rfl (hs.rb.setCtx r ((hs.rb.readers _ (ctx_mem hctx)).beaten hbusy x)) rfl fun _ => .inl
  | idles => exact hs.of_units rfl rfl hs.rb rfl fun _ => .inl
  | tells bytes n =>
    refine hs.of_units rfl rfl hs.rb rfl fun j hj => ?_
    obtain hj | hj := List.mem_append.mp hj
    · obtain ⟨b, _, rfl⟩ := List.mem_map.mp hj
      exact .inr (plannable_submit _ b)
    · exact .inl hj
  | answers => exact hs.of_units rfl rfl hs.rb rfl fun _ => .inl

end

/-- Settles O56: what has the turn may be pending, in a state that still meets the invariant, and no operation breaks it. -/
theorem everyStepKeepsTheInvariant : Obligations.EveryStepKeepsTheInvariant := by
  intro s t hs hstep
  obtain ⟨hi, hinv⟩ := (turn_fetch s).inv hs
  exact (exec_effect hstep).inv hinv hi

/-! ## No operation that may be pending stops (spec/60_exceptions.md R210) -/

section

variable {s : State} {r : Nat}

/-- A beat completes where the invariant holds: the context is free, or its slot holds a sample. -/
theorem RbInv.exec_latestBeat (h : RbInv s.cfg s.rb) (hctx : s.hasCtx r = true) :
    ∃ t, exec (.latestBeat r) s = .next t := by
  cases hbusy : (s.ctx r).busy with
  | false => exact ⟨_, exec_latestBeat_of_free hctx hbusy⟩
  | true =>
    obtain ⟨x, hx⟩ := h.read_rptr hbusy
    exact ⟨_, exec_latestBeat_of_read hctx hbusy hx⟩

theorem exists_exec_latestReq (n : Nat) (hctx : s.hasCtx r = true) : ∃ t, exec (.latestReq r n) s = .next t := by
  cases hbusy : (s.ctx r).busy with
  | false => exact ⟨_, exec_latestReq_of_free n hctx hbusy⟩
  | true => exact ⟨_, exec_latestReq_of_busy n hctx hbusy⟩

theorem exists_exec_latest (n : Nat) (hctx : s.hasCtx r = true) : ∃ t, exec (.latest r n) s = .next t := by
  cases hbusy : (s.ctx r).busy with
  | false => exact ⟨_, exec_latest_of_free n hctx hbusy⟩
  | true => exact ⟨_, exec_latest_of_busy n hctx hbusy⟩

theorem exists_exec_getLatestBatch {c : Int} (h : c ≤ 0 ∨ s.hasCtx r = true) :
    ∃ t, exec (.getLatestBatch r c) s = .next t := by
  by_cases hc : c ≤ 0
  · exact ⟨_, exec_getLatestBatch_of_nonpos s r hc⟩
  have hctx : s.hasCtx r = true := h.resolve_left hc
  cases hbusy : (s.ctx r).busy with
  | false => exact ⟨_, exec_getLatestBatch_of_free (not_le.mp hc) hctx hbusy⟩
  | true => exact ⟨_, exec_getLatestBatch_of_busy (not_le.mp hc) hctx hbusy⟩

/-- Every operation that may be pending completes where the invariant holds. -/
theorem State.Inv.exists_exec (h : s.Inv) {i : Instr} (hi : plannable s.cfg i = true) : ∃ t, exec i s = .next t := by
  rw [plannable, Bool.and_eq_true] at hi
  obtain ⟨hwf, hport⟩ := hi
  cases i with
  | reset => exact ⟨_, exec_reset s⟩
  | submit b =>
    obtain ⟨t, ht, _⟩ := h.dec.exec_submit b
    exact ⟨t, ht⟩
  | push x => exact ⟨_, exec_push x s⟩
  | latestReq r n =>
    simp only [Instr.wf, Bool.and_eq_true, decide_eq_true_eq] at hwf
    exact exists_exec_latestReq n ((h.rb.hasCtx_iff r).mpr hwf.1)
  | latestBeat r =>
    simp only [Instr.wf, decide_eq_true_eq] at hwf
    exact h.rb.exec_latestBeat ((h.rb.hasCtx_iff r).mpr hwf)
  | idle => exact ⟨_, exec_idle s⟩
  | processMessage bytes n => exact ⟨_, exec_processMessage bytes n s⟩
  | latest r n =>
    simp only [Instr.wf, Bool.and_eq_true, decide_eq_true_eq] at hwf
    exact exists_exec_latest n ((h.rb.hasCtx_iff r).mpr hwf.1)
  | getLatestBatch r c =>
    simp only [Instr.wf, Bool.or_eq_true, decide_eq_true_eq] at hwf
    exact exists_exec_getLatestBatch (hwf.imp_right (h.rb.hasCtx_iff r).mpr)
  | isEmptyIsFull => exact ⟨_, exec_isEmptyIsFull s⟩
  | start | noise | len | seq | sysid | compid | msgid | payload | ck1 | ck2 => cases hport

end

/-- Settles O57: what has the turn may be pending, and completes. -/
theorem noStepStops : Obligations.NoStepStops := by
  intro s hs
  obtain ⟨hi, hinv⟩ := (turn_fetch s).inv hs
  exact hinv.exists_exec hi

/-- Settles O55: both units are empty, and no context is busy. -/
theorem resetStateMeetsTheInvariant : Obligations.ResetStateMeetsTheInvariant := by
  intro cfg
  refine { dec := decInv_of_waiting rfl rfl rfl (Nat.two_pow_pos _), rb := ?rb, queue := nofun, ports := nofun }
  case rb =>
    exact { canonical := rfl, cursor := Nat.two_pow_pos _, width := fun _ _ => nofun, bound := Nat.zero_le _
            young := fun _ => rfl, filled := fun j hj => absurd hj (Nat.not_lt_zero j)
            contexts := List.length_replicate
            readers := fun c hc => List.eq_of_mem_replicate hc ▸
              ctxInv_of_free rfl (Nat.two_pow_pos _) le_rfl (Nat.zero_le _) }

end Sys2Proof.Machine

namespace Sys2Proof.Machine

/-! ## Reads to their end (spec/41_ringbuffer.md R158 to R160) -/

section

variable {s : State} {r : Nat}

/-- Context `r` before its next beat: it is busy, and `k + 1` beats remain. -/
structure Reading (s : State) (r k : Nat) : Prop where
  busy : (s.ctx r).busy = true
  left : (s.ctx r).i + (k + 1) = (s.ctx r).m

/-- Where the invariant holds the next beat completes and keeps it; it is the last one exactly where one beat remained. -/
theorem Reading.beat {k : Nat} (h : Reading s r k) (hs : s.Inv) :
    ∃ x, exec (.latestBeat r) s = .next (s.beaten r x) ∧ (s.beaten r x).Inv ∧
      ((s.beaten r x).ctx r).i = (s.ctx r).i + 1 ∧ ((s.beaten r x).ctx r).m = (s.ctx r).m ∧
      ((s.beaten r x).ctx r).got.length = (s.ctx r).i + 1 ∧ ((s.beaten r x).ctx r).busy = decide (k ≠ 0) := by
  have hctx := hasCtx_of_busy h.busy
  have hc := hs.rb.readers _ (ctx_mem hctx)
  obtain ⟨x, hx⟩ := hs.rb.read_rptr h.busy
  have hexec := exec_latestBeat_of_read hctx h.busy hx
  have hcap : (s.ctx r).i < s.cfg.cap := Nat.lt_of_lt_of_le (hc.live h.busy).1 hc.length
  have hinv := (exec_effect hexec).inv hs (plannable_beat ((hs.rb.hasCtx_iff r).mp hctx))
  refine ⟨x, hexec, hinv, ?_⟩
  rw [State.beaten_ctx x hctx]
  refine ⟨beatIndexSucc_of_lt hcap, rfl, by simp [(hc.live h.busy).2.2], ?busy⟩
  case busy =>
    have hleft := h.left
    rw [RdCtx.beaten_busy, RdCtx.last_of_lt hcap, ← decide_not, decide_eq_decide]
    omega

/-- A beat that is not the last leaves one fewer. -/
theorem Reading.beat_succ {k : Nat} (h : Reading s r (k + 1)) (hs : s.Inv) :
    ∃ x, exec (.latestBeat r) s = .next (s.beaten r x) ∧ (s.beaten r x).Inv ∧ Reading (s.beaten r x) r k ∧
      ((s.beaten r x).ctx r).m = (s.ctx r).m := by
  obtain ⟨x, hexec, hinv, hi, hm, _, hbusy⟩ := h.beat hs
  have hleft := h.left
  exact ⟨x, hexec, hinv, ⟨hbusy, by omega⟩, hm⟩

/-- The beats that remain complete, and leave the context free. -/
theorem Reading.runOps_beats {k : Nat} (h : Reading s r k) (hs : s.Inv) :
    ∃ t outs, runOps (List.replicate (k + 1) (.latestBeat r)) s = .next (t, outs) ∧ (t.ctx r).busy = false ∧
      (t.ctx r).i = (s.ctx r).m ∧ (t.ctx r).got.length = (s.ctx r).m ∧ (outs.filterMap (·.beat)).length = k + 1 := by
  induction k generalizing s with
  | zero =>
    obtain ⟨x, hexec, _, hi, _, hgot, hbusy⟩ := h.beat hs
    exact ⟨_, _, runOps_singleton hexec, hbusy, hi.trans h.left, hgot.trans h.left, rfl⟩
  | succ k ih =>
    obtain ⟨x, hexec, hinv, hnext, hm⟩ := h.beat_succ hs
    obtain ⟨t, outs, hrun, hfree, hti, htgot, hbeats⟩ := ih hnext hinv
    rw [hm] at hti htgot
    refine ⟨t, _, runOps_cons hexec hrun, hfree, hti, htgot, ?_⟩
    rw [List.filterMap_cons, State.beaten_beat, List.length_cons, hbeats]

theorem reading_of_busy (hs : s.Inv) (hbusy : (s.ctx r).busy = true) :
    ∃ k, Reading s r k ∧ (s.ctx r).m - (s.ctx r).i = k + 1 := by
  have hlive := ((hs.rb.readers _ (ctx_mem (hasCtx_of_busy hbusy))).live hbusy).1
  exact ⟨(s.ctx r).m - (s.ctx r).i - 1, ⟨hbusy, by omega⟩, by omega⟩

end

/-- Settles O41: the context is reading, and each of its beats leaves one fewer. -/
theorem aBusyReadEndsAfterItsBeats : Obligations.ABusyReadEndsAfterItsBeats := by
  intro s r hs _ hbusy
  obtain ⟨k, hreading, hk⟩ := reading_of_busy hs hbusy
  rw [hk]
  exact hreading.runOps_beats hs

/-! ## A waiting request (spec/41_ringbuffer.md R156) -/

section

variable {s : State} {r n : Nat} {q : List Instr}

/-- A pending request on a free context is accepted in one step. -/
theorem runSteps_one_of_free (hports : s.ports = []) (hq : s.queue = .latestReq r n :: q) (hctx : s.hasCtx r = true)
    (hfree : (s.ctx r).busy = false) :
    ∃ t outs, runSteps 1 s = .next (t, outs) ∧ t.queue = q ∧ (t.ctx r).w = s.rb.wcur ∧
      (t.ctx r).m = min n s.rb.count ∧ (t.ctx r).i = 0 := by
  have hfetch : fetch s = (.latestReq r n, { s with queue := q }) := by
    rw [fetch_of_nil hports, quietTurn_of_queue hq]
    refine pendingTurn_of_free q ?_
    rintro r' ⟨⟩
    exact hfree
  have hstep : step s = .next (doRequest r n { s with queue := q }) :=
    (step_of_fetch hfetch).trans (exec_latestReq_of_free (s := { s with queue := q }) n hctx hfree)
  refine ⟨_, _, runSteps_succ hstep (runSteps_zero _), rfl, ?_⟩
  rw [doRequest_ctx (s := { s with queue := q }) n hctx]
  exact ⟨rfl, rfl, rfl⟩

/-- While its context is busy, the step of a pending request is that context's beat. -/
theorem step_of_waiting (hports : s.ports = []) (hq : s.queue = .latestReq r n :: q) (hbusy : (s.ctx r).busy = true) :
    step s = exec (.latestBeat r) s := by
  refine step_of_fetch ?_
  rw [fetch_of_nil hports, quietTurn_of_queue hq]
  exact pendingTurn_of_wait q rfl hbusy

/-- A waiting request is accepted once the remaining beats have freed its context. -/
theorem Reading.runSteps_waiting {k : Nat} (h : Reading s r k) (hs : s.Inv) (hports : s.ports = [])
    (hq : s.queue = .latestReq r n :: q) :
    ∃ t outs, runSteps (k + 1 + 1) s = .next (t, outs) ∧ t.queue = q ∧ (t.ctx r).w = s.rb.wcur ∧
      (t.ctx r).m = min n s.rb.count ∧ (t.ctx r).i = 0 := by
  induction k generalizing s with
  | zero =>
    obtain ⟨x, hexec, _, _, _, _, hfree⟩ := h.beat hs
    have hctx : (s.beaten r x).hasCtx r = true := by
      rw [State.hasCtx, (onlyContext_beaten s r x).width]
      exact hasCtx_of_busy h.busy
    obtain ⟨t, outs, hrun, ht⟩ := runSteps_one_of_free (s := s.beaten r x) hports hq hctx hfree
    exact ⟨t, _, runSteps_succ ((step_of_waiting hports hq h.busy).trans hexec) hrun, ht⟩
  | succ k ih =>
    obtain ⟨x, hexec, hinv, hnext, _⟩ := h.beat_succ hs
    obtain ⟨t, outs, hrun, ht⟩ := ih hnext hinv hports hq
    exact ⟨t, _, runSteps_succ ((step_of_waiting hports hq h.busy).trans hexec) hrun, ht⟩

end

/-- Settles O42: each step is a beat until the context is free, and then the request is accepted. -/
theorem aWaitingRequestIsAccepted : Obligations.AWaitingRequestIsAccepted := by
  intro s r n q hs hports hq hbusy
  obtain ⟨k, hreading, hk⟩ := reading_of_busy hs hbusy
  rw [hk]
  exact hreading.runSteps_waiting hs hports hq

/-! ## A read in a quiet ring (spec/20_memory.md R74) -/

section

variable {s : State} {h : Nat → Sample} {r : Nat}

/-- The beat with index `i` of a read of `m` samples from the snapshot `w`, with no push since (R73). -/
def quietBeat (h : Nat → Sample) (r w m i : Nat) : Beat :=
  { ctx := r, sample := h (w - 1 - i), last := decide (i + 1 = m) }

/-- The `k` remaining beats of a read in a ring that has taken no push since the snapshot. -/
theorem runOps_quietBeats {k : Nat} (hctx : s.hasCtx r = true) (hist : HoldsHistory s.cfg s.rb h (s.ctx r).w)
    (hcap : (s.ctx r).m ≤ s.cfg.cap) (hw : (s.ctx r).m ≤ (s.ctx r).w) (hk : (s.ctx r).i + k = (s.ctx r).m)
    (hbusy : (s.ctx r).busy = decide (k ≠ 0)) :
    ∃ t outs, runOps (List.replicate k (.latestBeat r)) s = .next (t, outs) ∧ SameRing s t ∧
      (t.ctx r).busy = false ∧ (t.ctx r).m = (s.ctx r).m ∧
      (t.ctx r).got = (s.ctx r).got ++ (List.range' (s.ctx r).i k).map (fun i => h ((s.ctx r).w - 1 - i)) ∧
      outs.filterMap (·.beat) = (List.range' (s.ctx r).i k).map (quietBeat h r (s.ctx r).w (s.ctx r).m) := by
  induction k generalizing s with
  | zero => exact ⟨s, [], rfl, ⟨rfl, rfl, rfl, rfl⟩, hbusy, rfl, (List.append_nil _).symm, rfl⟩
  | succ k ih =>
    have hlt : (s.ctx r).i < s.cfg.cap := by omega
    have hread := HoldsHistory.read_rptr (p := 0) hist (by omega)
    rw [beatPush_of_notOvertaken _ (by omega)] at hread
    have hexec := exec_latestBeat_of_read hctx hbusy hread
    generalize hx : h ((s.ctx r).w - 1 - (s.ctx r).i) = x at hread hexec
    have hsame := SameRing.of_onlyContext (onlyContext_beaten s r x)
    have hbeaten := State.beaten_ctx x hctx
    have hi : ((s.beaten r x).ctx r).i = (s.ctx r).i + 1 := by rw [hbeaten]; exact beatIndexSucc_of_lt hlt
    have hm : ((s.beaten r x).ctx r).m = (s.ctx r).m := by rw [hbeaten]; rfl
    have hww : ((s.beaten r x).ctx r).w = (s.ctx r).w := by rw [hbeaten]; rfl
    have hgot : ((s.beaten r x).ctx r).got = (s.ctx r).got ++ [x] := by rw [hbeaten]; rfl
    have hnext : ((s.beaten r x).ctx r).busy = decide (k ≠ 0) := by
      rw [hbeaten, RdCtx.beaten_busy, RdCtx.last_of_lt hlt, ← decide_not, decide_eq_decide]
      omega
    have hctx' : (s.beaten r x).hasCtx r = true := by rwa [State.hasCtx, (onlyContext_beaten s r x).width]
    obtain ⟨t, outs, hrun, ht, hfree, htm, htgot, hbeats⟩ := ih hctx' (hww ▸ hist.sameRing hsame) (hm ▸ hcap)
      (hm ▸ hww ▸ hw) (by omega) hnext
    rw [hi, hww, hgot] at htgot
    rw [hi, hww, hm] at hbeats
    refine ⟨t, _, runOps_cons hexec hrun, ?ring, hfree, htm.trans hm, ?got, ?beats⟩
    case ring =>
      exact ⟨ht.cfg.trans hsame.cfg, ht.slots.trans hsame.slots, ht.wcur.trans hsame.wcur, ht.count.trans hsame.count⟩
    case got => rw [htgot, List.range'_succ, List.map_cons, hx, List.append_assoc, List.singleton_append]
    case beats =>
      rw [List.filterMap_cons, State.beaten_beat, List.range'_succ, List.map_cons, hbeats, RdCtx.last_of_lt hlt,
        quietBeat, hx]

end

/-- Settles O40: the request takes the snapshot `w = P`, and no push comes between it and its beats. -/
theorem quiescentReadIsMostRecentFirst : Obligations.QuiescentReadIsMostRecentFirst := by
  intro s h r p n hctx hfree hist
  have hreq := exec_latestReq_of_free n hctx hfree
  have hsnap := doRequest_ctx (s := s) n hctx
  have hsame := SameRing.of_onlyContext (onlyContext_doRequest s r n)
  have hw : ((doRequest r n s).ctx r).w = p := by rw [hsnap, snapshot_w, hist.cursor]
  have hm : ((doRequest r n s).ctx r).m = min n (min p s.cfg.cap) := by
    rw [hsnap, snapshot_m, readLength, hist.count]
  have hi : ((doRequest r n s).ctx r).i = 0 := by rw [hsnap, snapshot_i]
  have hgot : ((doRequest r n s).ctx r).got = [] := by rw [hsnap, snapshot_got]
  have hctx' : (doRequest r n s).hasCtx r = true := by rwa [State.hasCtx, (onlyContext_doRequest s r n).width]
  obtain ⟨t, outs, hrun, ht, hfree', htm, htgot, hbeats⟩ := runOps_quietBeats (s := doRequest r n s) (h := h)
    (k := min n (min p s.cfg.cap)) hctx' (hw ▸ hist.sameRing hsame) (by rw [hm, hsame.cfg]; omega) (by rw [hm, hw]; omega)
    (by rw [hi, hm, Nat.zero_add]) (by rw [hsnap, snapshot_busy, readLength, hist.count, decide_not]; rfl)
  rw [hi, hw, hgot, ← List.range_eq_range', List.nil_append] at htgot
  rw [hi, hw, hm, ← List.range_eq_range'] at hbeats
  exact ⟨t, _, runOps_cons hreq hrun, hfree', htm.trans hm, htgot, hbeats, ht.slots.trans hsame.slots,
    ht.wcur.trans hsame.wcur, ht.count.trans hsame.count⟩

/-! ## A clocked cycle with a push (spec/60_exceptions.md R222) -/

/-- Settles O43: the push is performed in the state that the beat or the request left. -/
theorem sameCycleReadsComeBeforeThePush : Obligations.SameCycleReadsComeBeforeThePush := by
  intro s r x n hctx
  refine ⟨fun y hbusy hread => ?beat, fun hfree => ?request⟩
  case beat =>
    have hbeat := exec_latestBeat_of_read hctx hbusy hread
    exact ⟨_, _, runOps_cons hbeat (runOps_singleton (exec_push x _)), rfl, State.read_pushed_same (s.beaten r y) x⟩
  case request =>
    have hreq := exec_latestReq_of_free n hctx hfree
    refine ⟨_, _, runOps_cons hreq (runOps_singleton (exec_push x _)), ?_⟩
    rw [show ((doRequest r n s).pushed x).ctx r = snapshot s n from doRequest_ctx n hctx]
    exact ⟨rfl, rfl, rfl⟩

end Sys2Proof.Machine
